-- ==== Sys2Proof/Word.lean ====
section
/-! DEFINITION. The word types of the core: every quantity the spec treats as bits, at the width the spec gives it
(00_scope.md R2; 30_encoding.md R51). All of them are read as unsigned numbers (00_scope.md section 7.1). -/

namespace Sys2Proof

/-- A byte: a memory byte, a V register, a timer, the field `NN`. -/
abbrev Byte := BitVec 8

/-- A 16-bit word: an opcode, `pc`, `I`, a call-stack entry. -/
abbrev Word := BitVec 16

/-- A 4-bit field: `op_class`, a register index `X` or `Y`, a sprite height `N`. -/
abbrev Nibble := BitVec 4

/-- The 12-bit field `NNN`. -/
abbrev Addr12 := BitVec 12

end Sys2Proof
end

