-- ==== Sys2Proof/Syntax.lean ====
section
/-! DEFINITION. The instructions: one constructor per outcome of the decoder of 30_encoding.md R54 (eight instructions
and `UNIMPL`), carrying the fields that its format of R52 uses. -/

namespace Sys2Proof

/-- The nine outcomes of decoding (30_encoding.md R54, R55). `CLS` and `RET` carry no operand, since their `X` nibble is
ignored (R57). The ten `UNIMPL` rows of the opcode table are the one outcome `unimpl` (DESIGN CHOICE, safe, log entry 8),
which carries the whole word, because the diagnostic event reports it (45_unimplemented.md R110). -/
inductive Instr where
  /-- `00E0`, clear the display (44_draw_buffer.md R100). -/
  | cls
  /-- `00EE`, return (41_control_transfer.md R80). -/
  | ret
  /-- `1NNN`, jump (41_control_transfer.md R81). -/
  | jp (nnn : Addr12)
  /-- `2NNN`, call (41_control_transfer.md R82). -/
  | call (nnn : Addr12)
  /-- `6XNN`, load a register with an immediate (42_register_ops.md R90). -/
  | ldVx (x : Nibble) (nn : Byte)
  /-- `7XNN`, add an immediate to a register (42_register_ops.md R91). -/
  | addVx (x : Nibble) (nn : Byte)
  /-- `ANNN`, load the index register (43_memory_addressing.md R95). -/
  | ldI (nnn : Addr12)
  /-- `DXYN`, draw a sprite (44_draw_buffer.md R101). -/
  | drw (x y n : Nibble)
  /-- Every other word (45_unimplemented.md R110). -/
  | unimpl (word : Word)
  deriving DecidableEq, Repr

end Sys2Proof
end

