-- ==== Sys2Proof/Decode.lean ====
section
/-! DEFINITION. The field cutters, the decoder (total on the 65536 words; on bytes it rejects by name what is too short
to hold a word), the encoder, and the opcode table of 30_encoding.md R55 as data. -/

namespace Sys2Proof

/-! ## Fields (30_encoding.md R51) -/

/-- `op_class`, bits 15 to 12. -/
def opClass (w : Word) : Nibble := w.extractLsb' 12 4

/-- `X`, bits 11 to 8. -/
def fieldX (w : Word) : Nibble := w.extractLsb' 8 4

/-- `Y`, bits 7 to 4. -/
def fieldY (w : Word) : Nibble := w.extractLsb' 4 4

/-- `N`, bits 3 to 0. -/
def fieldN (w : Word) : Nibble := w.extractLsb' 0 4

/-- `NN`, bits 7 to 0. -/
def fieldNN (w : Word) : Byte := w.extractLsb' 0 8

/-- `NNN`, bits 11 to 0. -/
def fieldNNN (w : Word) : Addr12 := w.extractLsb' 0 12

/-! ## Decoding -/

/-- The decoder's algorithm, 30_encoding.md R54: `op_class` first and, for class 0 only, `NN`. In class 0 the `X` nibble
takes no part (R57, the spec's own decision D7: DEDUCED, unsafe with respect to the reference program only, log
entry 10). -/
def decodeWord (w : Word) : Instr :=
  match (opClass w).toNat with
  | 0x0 =>
    if fieldNN w = 0xE0#8 then .cls
    else if fieldNN w = 0xEE#8 then .ret
    else .unimpl w
  | 0x1 => .jp (fieldNNN w)
  | 0x2 => .call (fieldNNN w)
  | 0x6 => .ldVx (fieldX w) (fieldNN w)
  | 0x7 => .addVx (fieldX w) (fieldNN w)
  | 0xA => .ldI (fieldNNN w)
  | 0xD => .drw (fieldX w) (fieldY w) (fieldN w)
  | _ => .unimpl w

/-- Why a sequence of bytes gives no instruction. Every whole word decodes (30_encoding.md R56), so being too short is
the only reason. -/
inductive DecodeError where
  /-- Fewer than the two bytes every instruction takes (30_encoding.md R50). Safe: no instruction is made up. -/
  | truncated
  deriving DecidableEq, Repr

/-- The word of two bytes: the byte at the lower address is bits 15 to 8 (20_memory.md R34). -/
def wordOfBytes (hi lo : Byte) : Word := hi ++ lo

/-- Decode the instruction at the front of a byte sequence; the rest of the sequence is returned. -/
def decode : List Byte → Except DecodeError (Instr × List Byte)
  | hi :: lo :: rest => .ok (decodeWord (wordOfBytes hi lo), rest)
  | [_] => .error .truncated
  | [] => .error .truncated

/-! ## Encoding -/

/-- The word of an instruction, from the encodings of 30_encoding.md R55. `CLS` and `RET` get the canonical words
0x00E0 and 0x00EE, the only ones an assembler emits (R57). -/
def encode : Instr → Word
  | .cls => 0x00E0#16
  | .ret => 0x00EE#16
  | .jp nnn => 0x1#4 ++ nnn
  | .call nnn => 0x2#4 ++ nnn
  | .ldVx x nn => 0x6#4 ++ x ++ nn
  | .addVx x nn => 0x7#4 ++ x ++ nn
  | .ldI nnn => 0xA#4 ++ nnn
  | .drw x y n => 0xD#4 ++ x ++ y ++ n
  | .unimpl w => w

/-- The bytes of an instruction in the order they lie in memory (20_memory.md R34). -/
def encodeBytes (i : Instr) : List Byte :=
  [(encode i).extractLsb' 8 8, (encode i).extractLsb' 0 8]

/-- The word an assembler would emit for the instruction a word decodes to: the `X` nibble of `CLS` and `RET` cleared,
every other word itself (30_encoding.md R57). -/
def canonicalWord (w : Word) : Word :=
  if w &&& 0xF0FF#16 = 0x00E0#16 ∨ w &&& 0xF0FF#16 = 0x00EE#16 then w &&& 0xF0FF#16 else w

/-! ## The opcode table -/

/-- One row of the opcode map: a word selects the row when `w & mask = pattern` (30_encoding.md R55). -/
structure OpcodeRow where
  mnemonic : String
  mask : Word
  pattern : Word
  deriving DecidableEq, Repr

/-- The word selects the row. -/
def rowMatches (r : OpcodeRow) (w : Word) : Bool := w &&& r.mask == r.pattern

/-- The eight instruction rows of the opcode map, 30_encoding.md R55, with the mnemonics of opcode_table.json. -/
def instructionRows : List OpcodeRow :=
  [⟨"CLS", 0xF0FF#16, 0x00E0#16⟩, ⟨"RET", 0xF0FF#16, 0x00EE#16⟩,
   ⟨"JP", 0xF000#16, 0x1000#16⟩, ⟨"CALL", 0xF000#16, 0x2000#16⟩,
   ⟨"LD_Vx", 0xF000#16, 0x6000#16⟩, ⟨"ADD_Vx", 0xF000#16, 0x7000#16⟩,
   ⟨"LD_I", 0xF000#16, 0xA000#16⟩, ⟨"DRW", 0xF000#16, 0xD000#16⟩]

/-- The ten `UNIMPL` rows: the nine classes, then the row that catches what no earlier row took. -/
def unimplRows : List OpcodeRow :=
  [⟨"UNIMPL", 0xF000#16, 0x3000#16⟩, ⟨"UNIMPL", 0xF000#16, 0x4000#16⟩,
   ⟨"UNIMPL", 0xF000#16, 0x5000#16⟩, ⟨"UNIMPL", 0xF000#16, 0x8000#16⟩,
   ⟨"UNIMPL", 0xF000#16, 0x9000#16⟩, ⟨"UNIMPL", 0xF000#16, 0xB000#16⟩,
   ⟨"UNIMPL", 0xF000#16, 0xC000#16⟩, ⟨"UNIMPL", 0xF000#16, 0xE000#16⟩,
   ⟨"UNIMPL", 0xF000#16, 0xF000#16⟩, ⟨"UNIMPL", 0x0000#16, 0x0000#16⟩]

/-- The rows in the table's order; the first that matches wins (30_encoding.md R55). -/
def opcodeTable : List OpcodeRow := instructionRows ++ unimplRows

/-- The table's mnemonic of an instruction. -/
def Instr.mnemonic : Instr → String
  | .cls => "CLS"
  | .ret => "RET"
  | .jp _ => "JP"
  | .call _ => "CALL"
  | .ldVx _ _ => "LD_Vx"
  | .addVx _ _ => "ADD_Vx"
  | .ldI _ => "LD_I"
  | .drw _ _ _ => "DRW"
  | .unimpl _ => "UNIMPL"

/-! ## Words as the opcode table numbers their bits -/

/-- The word whose low `nbits` bits are those of `w`, as opcode_table.json numbers them (bit 0 the least significant bit
of the one 16-bit word an instruction has), and whose other bits are 0. -/
def tableWord (nbits w : Nat) : Word := BitVec.ofNat 16 (w % 2 ^ nbits)

/-- The two bytes of a table word in memory order. -/
def tableBytes (nbits w : Nat) : List Byte :=
  [(tableWord nbits w).extractLsb' 8 8, (tableWord nbits w).extractLsb' 0 8]

/-- What the decoder reads from the bytes of a table word. -/
def decodeTableWord (nbits w : Nat) : Option Instr :=
  match decode (tableBytes nbits w) with
  | .ok (i, _) => some i
  | .error _ => none

end Sys2Proof
end

