-- ==== Sys2Proof/Config.lean ====
section
/-! DEFINITION. The parameters of 00_scope.md R2. The source fixes every size to one value, and each stands as a numeral
in the type or the operation it sizes: `MEM_SIZE` 4096 and `ADDR_MAX` 0xFFF in `Memory.wfAbove` and
`State.spriteOutOfBounds`, `FONT_SIZE` 80 in `Memory.resetByte`, `PROG_BASE` 0x200 and `ROM_MAX` 3584 in `State.reset` and
`loadRom`, `PC_FETCH_MAX` 4094 in `State.fetchOutOfBounds`, `INSTR_BYTES` 2 in `State.advance`, `NREGS`,
`STACK_CAPACITY`, `NKEYS` and all widths in `State`, `DISPLAY_W` 64 and `DISPLAY_H` 32 in `cellIndex`, `SPRITE_W` 8 in
`drawRow`. The one parameter the source leaves open is FONT. -/

namespace Sys2Proof

/-- `FONT[0..79]`, the 80 bytes of the font table: glyph `d`'s byte `k` is `font (5*d + k)`. The source gives no value and
the spec leaves it an argument of the model (10_state.md R10; 92_eei_decisions.md D9). It is a free value: no body, so
every theorem holds for every table (DESIGN CHOICE, safe, log entry 1). -/
opaque Config.font : Fin 80 → Byte

end Sys2Proof
end

