-- ==== Sys2Proof/Machine/State.lean ====
section
/-! DEFINITION. The state of the core, whole: the items of 10_state.md R10 to R20, which R22 says are all there is; its
value after `Initialize` (R23); and the reasons for which the machine stops. -/

namespace Sys2Proof.Machine

/-- Memory, 20_memory.md R30: the cells whose byte differs from the one memory holds after `Initialize`, addresses rising
(the canonical form is `Memory.wf`, in Machine/Ops.lean; DESIGN CHOICE, safe, log entry 2). -/
abbrev Memory := List Host.Cell

/-- The display, 10_state.md R17: a flat row-major grid of 64 by 32 one-bit cells, bit `row * 64 + col` the cell
(col, row), 1 for `true`, on (DESIGN CHOICE, safe, log entry 3). It is read and written cell by cell, through
`Display.cell` and `Display.xorCell` of Machine/Ops.lean, and never as a number. -/
abbrev Display := BitVec 2048

/-- The three run states of 10_state.md R19. -/
inductive RunState where
  | running
  | paused
  | quit
  deriving DecidableEq, Repr

/-- The four fault causes of 60_exceptions.md R120. -/
inductive FaultCause where
  /-- Raised by the fetch of any step with `pc > 4094` (R121). -/
  | programCounterOutOfBounds
  /-- Raised by `CALL` at depth 16 (R122). -/
  | callStackOverflow
  /-- Raised by `RET` at depth 0 (R123). -/
  | callStackUnderflow
  /-- Raised by `DRW` when a row it would read lies above 0xFFF (R124). -/
  | spriteAddressOutOfBounds
  deriving DecidableEq, Repr

/-- What the latch records of a fault: the cause, and the address of the faulting instruction (10_state.md R20). -/
structure FaultRecord where
  cause : FaultCause
  faultPc : Word
  deriving DecidableEq, Repr

/-- The diagnostic event `Diag(pc_of_instruction, opcode)` of 10_state.md R21. It is an output of a step, not state. -/
structure Diag where
  pc : Word
  opcode : Word
  deriving DecidableEq, Repr

/-- The state of the core (10_state.md R22). -/
structure State where
  /-- `memory`, 4096 bytes (R10). -/
  memory : Memory
  /-- `V[0]` to `V[15]` (R11); `V[15]` is also VF (R12). -/
  v : Vector Byte 16
  /-- The index register `I` (R13). -/
  i : Word
  /-- The program counter (R14). -/
  pc : Word
  /-- `stack[0]` to `stack[15]` (R15), a store of its own outside memory (DEDUCED from the spec's own decision D1, safe,
  log entry 13). -/
  stack : Vector Word 16
  /-- `depth`, the entries on the call stack, 0 to 16 (R15). -/
  depth : Fin 17
  /-- `delay_timer` (R16). -/
  delayTimer : Byte
  /-- `sound_timer` (R16). -/
  soundTimer : Byte
  /-- `display` (R17). -/
  display : Display
  /-- `keypad`, 16 key states (R18). -/
  keypad : Vector Bool 16
  /-- `run_state` (R19). -/
  runState : RunState
  /-- The `fault` latch (R20). -/
  fault : Option FaultRecord
  deriving DecidableEq, Repr

/-- Reasons for which a step stops the model without a next state. There is none: every fault of this hardware is an
entry the spec describes, the latching of 60_exceptions.md R129, and so a next state with `State.fault` set (DEDUCED from
the spec's own decision D3, safe, log entry 4). Nobody raises a value of this type, since it has none. Safe. -/
inductive Fault where
  deriving DecidableEq, Repr

/-- Reasons for which the model gives a command or an instruction no meaning. -/
inductive Refusal where
  /-- An instruction of the table that the model gives no meaning. Raised by nobody: every arm of `exec` has its meaning.
  Safe. -/
  | notModelled (mnemonic : String)
  /-- Raised by the host command `LoadRom` at any time but immediately after `Initialize`, where
  70_reset_and_hazards.md R152 gives it no meaning and says that a model refuses it. Safe. -/
  | lateLoadRom
  /-- Raised by the host command `Step` before a boot has succeeded, which 70_reset_and_hazards.md R152 forbids the host.
  Safe. -/
  | stepBeforeBoot
  deriving DecidableEq, Repr

/-- The state after `Initialize`, 10_state.md R23: the font table and zeros in memory (which is what an unlisted address
reads as), everything else zero, false, `Running` and `none`, and `pc` at 0x200. -/
def State.reset : State where
  memory := []
  v := Vector.replicate 16 0#8
  i := 0#16
  pc := 0x200#16
  stack := Vector.replicate 16 0#16
  depth := 0
  delayTimer := 0#8
  soundTimer := 0#8
  display := 0#2048
  keypad := Vector.replicate 16 false
  runState := .running
  fault := none

end Sys2Proof.Machine
end

