-- ==== Sys2Proof/Machine/Ops.lean ====
section
/-! DEFINITION. The named operations over memory, registers, call stack and display, the taking of a fault, and the
fetch. Every read and write of the state that a meaning makes goes through one of them. -/

namespace Sys2Proof.Machine

/-! ## Memory (20_memory.md) -/

/-- What an address holds that is not listed: the contents `Initialize` leaves, the font table at 0x000 to 0x04F and 0
elsewhere (10_state.md R10, R23; DESIGN CHOICE, safe, log entry 2). -/
def Memory.resetByte (a : Nat) : Byte :=
  if h : a < 80 then Config.font ⟨a, h⟩ else 0#8

/-- `MemRead(a, 1)`, 20_memory.md R32, for an address the caller has checked to be at most 0xFFF (R39). -/
def Memory.byteAt : Memory → Nat → Byte
  | [], a => Memory.resetByte a
  | (b, v) :: m, a => if a = b then v else Memory.byteAt m a

/-- The list with the cell at `a` taken out, or put in before the first higher address, so that the byte at `a` is `v`:
a byte equal to what the unlisted address reads as is not listed. -/
def Memory.writeByte : Memory → Nat → Byte → Memory
  | [], a, v => if v = Memory.resetByte a then [] else [(a, v)]
  | (b, u) :: m, a, v =>
    if a = b then (if v = Memory.resetByte a then m else (a, v) :: m)
    else if a < b then (if v = Memory.resetByte a then (b, u) :: m else (a, v) :: (b, u) :: m)
    else (b, u) :: Memory.writeByte m a v

/-- `MemWrite` of a sequence of bytes at rising addresses, as `LoadRom` does (70_reset_and_hazards.md R151). -/
def Memory.writeBytes : Memory → Nat → List Byte → Memory
  | m, _, [] => m
  | m, a, v :: vs => Memory.writeBytes (Memory.writeByte m a v) (a + 1) vs

/-- Every address of the list is above `lo`, the addresses rise strictly, each is an address of the memory, and no cell
holds what its unlisted address would read as. -/
def Memory.wfAbove : Nat → Memory → Bool
  | _, [] => true
  | lo, (b, u) :: m =>
    decide (lo ≤ b) && decide (b < 4096) && decide (u ≠ Memory.resetByte b) && Memory.wfAbove (b + 1) m

/-- The canonical form of memory: one list for each contents of the 4096 bytes. -/
def Memory.wf (m : Memory) : Bool := Memory.wfAbove 0 m

/-- The byte of memory at an address. -/
def State.byteAt (s : State) (a : Nat) : Byte := Memory.byteAt s.memory a

/-- The state with a byte of memory written. No instruction uses it (20_memory.md R33). -/
def State.writeByte (s : State) (a : Nat) (v : Byte) : State :=
  { s with memory := Memory.writeByte s.memory a v }

/-! ## Registers (10_state.md R11 to R14) -/

/-- Read of `V[x]`: every value of the 4-bit index names a register (R11). -/
def State.readV (s : State) (x : Nibble) : Byte := s.v[x.toNat]'x.isLt

/-- Write of `V[x]`. -/
def State.writeV (s : State) (x : Nibble) (b : Byte) : State :=
  { s with v := s.v.set x.toNat b x.isLt }

/-- Write of VF, which is `V[0xF]` (R12). -/
def State.writeVF (s : State) (b : Byte) : State := s.writeV 0xF#4 b

/-- Write of `I` (R13). -/
def State.writeI (s : State) (a : Word) : State := { s with i := a }

/-- Write of `pc` (R14). -/
def State.writePc (s : State) (a : Word) : State := { s with pc := a }

/-- The advance of `pc` past the instruction, made before it executes (40_fetch_decode_step.md R72). -/
def State.advance (s : State) : State := s.writePc (s.pc + 2#16)

/-! ## Call stack (10_state.md R15) -/

/-- `Push(v)`: nothing where the stack is full. -/
def State.push (s : State) (a : Word) : Option State :=
  if h : s.depth.val < 16 then
    some { s with
      stack := s.stack.set s.depth.val a h
      depth := ⟨s.depth.val + 1, Nat.succ_lt_succ h⟩ }
  else none

/-- `Pop()`: the top entry and the state without it, nothing where the stack is empty. The slot keeps its value. -/
def State.pop (s : State) : Option (Word × State) :=
  if h : s.depth.val = 0 then none
  else
    have hd : s.depth.val - 1 < 16 := by have := s.depth.isLt; omega
    some (s.stack[s.depth.val - 1]'hd, { s with depth := ⟨s.depth.val - 1, Nat.lt_succ_of_lt hd⟩ })

/-! ## Display (10_state.md R17) -/

/-- The flat index of a cell, `row * 64 + col`. -/
def cellIndex (col : Fin 64) (row : Fin 32) : Nat := row.val * 64 + col.val

/-- `display[col, row]`. -/
def Display.cell (d : Display) (col : Fin 64) (row : Fin 32) : Bool := d.getLsbD (cellIndex col row)

/-- `display[col, row] <- display[col, row] xor on`: the one bit of the cell is toggled, or nothing. -/
def Display.xorCell (d : Display) (col : Fin 64) (row : Fin 32) (on : Bool) : Display :=
  d ^^^ ((BitVec.ofBool on).zeroExtend 2048 <<< cellIndex col row)

/-- The display with every cell off. -/
def Display.clear : Display := 0#2048

/-- `display[col, row]` of a state. -/
def State.cell (s : State) (col : Fin 64) (row : Fin 32) : Bool := Display.cell s.display col row

/-- The state with its display replaced. -/
def State.writeDisplay (s : State) (d : Display) : State := { s with display := d }

/-! ## Taking a fault (60_exceptions.md R129)

There is no return beside it: R130 says that there is none, and only `Initialize` clears the latch. -/

/-- `raise cause`, on the state at the START of the step, where `pc` is still the address of the faulting instruction:
the one change is the latch, so every write the step had made is discarded and the fault is precise (DEDUCED from the
spec's own decision D3, safe, log entry 4). -/
def State.raise (s : State) (cause : FaultCause) : State :=
  { s with fault := some ⟨cause, s.pc⟩ }

/-- The numeric code of a cause, 60_exceptions.md R120 (the spec's own, D4; not observable by a program). -/
def causeCode : FaultCause → Nat
  | .programCounterOutOfBounds => 1
  | .callStackOverflow => 2
  | .callStackUnderflow => 3
  | .spriteAddressOutOfBounds => 4

/-! ## Gate and fetch (40_fetch_decode_step.md) -/

/-- A `Step` executes an instruction if and only if this holds (R70). -/
def State.canStep (s : State) : Bool := decide (s.runState = .running) && s.fault.isNone

/-- The fetch would leave memory (R71, 20_memory.md R39). Every parity of `pc` is legal (R36). -/
def State.fetchOutOfBounds (s : State) : Bool := decide (s.pc.toNat > 4094)

/-- The two bytes of the fetch, at `pc` and `pc + 1` (R71). -/
def State.fetchBytes (s : State) : List Byte := [s.byteAt s.pc.toNat, s.byteAt (s.pc.toNat + 1)]

/-- The opcode fetched, big-endian (R71, 20_memory.md R34). -/
def State.fetchWord (s : State) : Word :=
  wordOfBytes (s.byteAt s.pc.toNat) (s.byteAt (s.pc.toNat + 1))

end Sys2Proof.Machine
end

