-- ==== Sys2Proof/Machine/Operands.lean ====
section
/-! DEFINITION. The operand forms: the 12-bit address operand (30_encoding.md R53), the coordinates of a sprite
(44_draw_buffer.md R101) and the one addressing mode of the hardware, the sprite's base plus row index
(43_memory_addressing.md R96). -/

namespace Sys2Proof.Machine

/-- `zext_16(NNN)`: a byte address, neither scaled nor sign-extended (30_encoding.md R53). -/
def addrOperand (nnn : Addr12) : Word := nnn.zeroExtend 16

/-- `x0 = V[X] mod 64`, the column of a sprite's left edge. -/
def State.spriteCol (s : State) (x : Nibble) : Fin 64 :=
  ⟨(s.readV x).toNat % 64, Nat.mod_lt _ (by decide)⟩

/-- `y0 = V[Y] mod 32`, the row of a sprite's top edge. -/
def State.spriteRow (s : State) (y : Nibble) : Fin 32 :=
  ⟨(s.readV y).toNat % 32, Nat.mod_lt _ (by decide)⟩

/-- `rows = min(N, 32 - y0)`, the rows of a sprite that vertical clipping leaves. -/
def spriteRows (y0 : Fin 32) (n : Nibble) : Nat := min n.toNat (32 - y0.val)

/-- `rows >= 1` and `I + rows - 1 > 0xFFF`: some row that would be read lies above memory. The sum is not reduced
(43_memory_addressing.md R96). -/
def State.spriteOutOfBounds (s : State) (rows : Nat) : Bool :=
  decide (1 ≤ rows) && decide (s.i.toNat + rows - 1 > 0xFFF)

/-- Row `r` of the sprite, the byte at effective address `I + r` (43_memory_addressing.md R96). -/
def State.spriteByte (s : State) (r : Nat) : Byte := s.byteAt (s.i.toNat + r)

end Sys2Proof.Machine
end

