-- ==== Sys2Proof/Machine/Addressing.lean ====
section
/-! DEFINITION. Memory addressing: `LD I` (43_memory_addressing.md). -/

namespace Sys2Proof.Machine

/-- `LD I, NNN`, 43_memory_addressing.md R95: the address is not checked here. -/
def execLdI (nnn : Addr12) (s : State) : Host.Outcome State Fault Refusal :=
  .next (s.advance.writeI (addrOperand nnn))

end Sys2Proof.Machine
end

