-- ==== Sys2Proof/Machine/Control.lean ====
section
/-! DEFINITION. Control transfer: `RET`, `JP`, `CALL` (41_control_transfer.md). A meaning is given the state at the START
of its step, where `pc` is the address of the instruction, and makes the advance of 40_fetch_decode_step.md R72 itself,
first; so a fault is raised on the state it was given (60_exceptions.md R129; DESIGN CHOICE, safe, log entry 4). -/

namespace Sys2Proof.Machine

/-- `RET`, 41_control_transfer.md R80. -/
def execRet (s : State) : Host.Outcome State Fault Refusal :=
  match s.advance.pop with
  | some (target, t) => .next (t.writePc target)
  | none => .next (s.raise .callStackUnderflow)

/-- `JP NNN`, 41_control_transfer.md R81. -/
def execJp (nnn : Addr12) (s : State) : Host.Outcome State Fault Refusal :=
  .next (s.advance.writePc (addrOperand nnn))

/-- `CALL NNN`, 41_control_transfer.md R82: the value pushed is the already advanced `pc`. -/
def execCall (nnn : Addr12) (s : State) : Host.Outcome State Fault Refusal :=
  match s.advance.push s.advance.pc with
  | some t => .next (t.writePc (addrOperand nnn))
  | none => .next (s.raise .callStackOverflow)

end Sys2Proof.Machine
end

