-- ==== Sys2Proof/Machine/Flags.lean ====
section
/-! DEFINITION. The one flag computation of the hardware: VF as collision flag (10_state.md R12; 44_draw_buffer.md R101).
No instruction of the subset computes a carry. -/

namespace Sys2Proof.Machine

/-- One sprite bit collides with the cell it lands on when the bit is 1 and the cell is on. -/
def collides (bit cell : Bool) : Bool := bit && cell

/-- The value of VF after a draw: exactly 1 or exactly 0. -/
def collisionFlag (collision : Bool) : Byte := if collision then 1#8 else 0#8

end Sys2Proof.Machine
end

