-- ==== Sys2Proof/Machine/Draw.lean ====
section
/-! DEFINITION. Draw-buffer operations: `CLS`, `DRW` (44_draw_buffer.md). The loops of `DRW` are those of the pseudocode
of R101; the closed form R101 derives from it is an obligation, `Obligations.DrwClosedForm`. -/

namespace Sys2Proof.Machine

/-- `CLS`, 44_draw_buffer.md R100. VF is not written. -/
def execCls (s : State) : Host.Outcome State Fault Refusal :=
  .next (s.advance.writeDisplay Display.clear)

/-- What the loops of `DRW` carry: the display as drawn so far, and whether VF has been raised. -/
structure Canvas where
  display : Display
  collision : Bool
  deriving DecidableEq, Repr

/-- The innermost body of R101's loops: the collision test on the running display, then the exclusive or. -/
def drawPixel (c : Canvas) (col : Fin 64) (row : Fin 32) (bit : Bool) : Canvas where
  display := Display.xorCell c.display col row bit
  collision := c.collision || collides bit (Display.cell c.display col row)

/-- The loop over the bits `b` of a sprite row, left to right; it ends at the right edge (horizontal clipping). -/
def drawBits (byte : Byte) (x0 : Fin 64) (row : Fin 32) : List Nat → Canvas → Canvas
  | [], c => c
  | b :: bs, c =>
    if h : x0.val + (7 - b) < 64 then
      drawBits byte x0 row bs (drawPixel c ⟨x0.val + (7 - b), h⟩ row (byte.getLsbD b))
    else c

/-- One sprite row: bits 7 down to 0, the most significant the leftmost pixel. -/
def drawRow (byte : Byte) (x0 : Fin 64) (row : Fin 32) (c : Canvas) : Canvas :=
  drawBits byte x0 row [7, 6, 5, 4, 3, 2, 1, 0] c

/-- The loop over the rows `r` still to draw, `bytes r` the sprite's row `r`; it ends at the bottom edge (vertical
clipping). -/
def drawRows (bytes : Nat → Byte) (x0 : Fin 64) (y0 : Fin 32) : List Nat → Canvas → Canvas
  | [], c => c
  | r :: rs, c =>
    if h : y0.val + r < 32 then
      drawRows bytes x0 y0 rs (drawRow (bytes r) x0 ⟨y0.val + r, h⟩ c)
    else c

/-- The display and the collision after drawing the first `rows` rows of a sprite onto a display. -/
def drawSprite (bytes : Nat → Byte) (d : Display) (x0 : Fin 64) (y0 : Fin 32) (rows : Nat) : Canvas :=
  drawRows bytes x0 y0 (List.range rows) ⟨d, false⟩

/-- `DRW Vx, Vy, N`, 44_draw_buffer.md R101: the coordinates are sampled before VF is written (corner case 7, the
spec's own decision D17: DEDUCED, unsafe with respect to the reference program only, log entry 11), the
sprite's addresses are checked before anything changes (60_exceptions.md R124), and `I` stays. -/
def execDrw (x y n : Nibble) (s : State) : Host.Outcome State Fault Refusal :=
  let x0 := s.spriteCol x
  let y0 := s.spriteRow y
  let rows := spriteRows y0 n
  if s.spriteOutOfBounds rows then .next (s.raise .spriteAddressOutOfBounds)
  else
    let c := drawSprite s.spriteByte s.display x0 y0 rows
    .next ((s.advance.writeDisplay c.display).writeVF (collisionFlag c.collision))

end Sys2Proof.Machine
end

