-- ==== Sys2Proof/Machine/Register.lean ====
section
/-! DEFINITION. Register operations: `LD Vx`, `ADD Vx` (42_register_ops.md). -/

namespace Sys2Proof.Machine

/-- `LD Vx, NN`, 42_register_ops.md R90. -/
def execLdVx (x : Nibble) (nn : Byte) (s : State) : Host.Outcome State Fault Refusal :=
  .next (s.advance.writeV x nn)

/-- `ADD Vx, NN`, 42_register_ops.md R91: modulo 256, and no carry is written. -/
def execAddVx (x : Nibble) (nn : Byte) (s : State) : Host.Outcome State Fault Refusal :=
  .next (s.advance.writeV x (s.readV x + nn))

end Sys2Proof.Machine
end

