-- ==== Sys2Proof/Machine/Unimplemented.lean ====
section
/-! DEFINITION. Unimplemented opcodes (45_unimplemented.md), and the diagnostic event, an output of a step that no state
holds (10_state.md R21; DESIGN CHOICE, safe, log entry 5). -/

namespace Sys2Proof.Machine

/-- `UNIMPL`, 45_unimplemented.md R110: nothing but the advance (the spec's own decision D6: DEDUCED, safe, log entry 12).
The word matters to the diagnostic event only. -/
def execUnimpl (_word : Word) (s : State) : Host.Outcome State Fault Refusal :=
  .next s.advance

/-- The diagnostic event an instruction emits when it executes on a state: `UNIMPL` emits `Diag(pc0, opcode)` (R110), the
others emit none (60_exceptions.md R125). -/
def diagOf (i : Instr) (s : State) : Option Diag :=
  match i with
  | .cls => none
  | .ret => none
  | .jp _ => none
  | .call _ => none
  | .ldVx _ _ => none
  | .addVx _ _ => none
  | .ldI _ => none
  | .drw _ _ _ => none
  | .unimpl w => some ⟨s.pc, w⟩

/-- The diagnostic event of the `Step` issued in a state: none where the step executes no instruction. -/
def stepDiag (s : State) : Option Diag :=
  if s.canStep && !s.fetchOutOfBounds then diagOf (decodeWord s.fetchWord) s else none

end Sys2Proof.Machine
end

