-- ==== Sys2Proof/Machine/Dispatch.lean ====
section
/-! DEFINITION. One arm per constructor of Instr, each one direct call of its meaning. The state is the one at the START
of the step: `pc` is the instruction's own address (40_fetch_decode_step.md R74, R75). -/

namespace Sys2Proof.Machine

def exec (i : Instr) (s : State) : Host.Outcome State Fault Refusal :=
  match i with
  | .cls => Sys2Proof.Machine.execCls s
  | .ret => Sys2Proof.Machine.execRet s
  | .jp nnn => Sys2Proof.Machine.execJp nnn s
  | .call nnn => Sys2Proof.Machine.execCall nnn s
  | .ldVx x nn => Sys2Proof.Machine.execLdVx x nn s
  | .addVx x nn => Sys2Proof.Machine.execAddVx x nn s
  | .ldI nnn => Sys2Proof.Machine.execLdI nnn s
  | .drw x y n => Sys2Proof.Machine.execDrw x y n s
  | .unimpl word => Sys2Proof.Machine.execUnimpl word s

end Sys2Proof.Machine
end

