-- ==== Sys2Proof/Machine/Step.lean ====
section
/-! DEFINITION. The `Step` command, 40_fetch_decode_step.md R70 to R76, and the placing of one instruction where the next
step fetches. -/

namespace Sys2Proof.Machine

/-- One `Step` (R75). A paused, ended or faulted core does nothing (R70); a `pc` above 4094 faults before a byte is read
(R71); otherwise the word at `pc` is fetched, decoded and executed. It always answers a next state. -/
def step (s : State) : Host.Outcome State Fault Refusal :=
  if s.canStep then
    if s.fetchOutOfBounds then .next (s.raise .programCounterOutOfBounds)
    else exec (decodeWord s.fetchWord) s
  else .next s

/-- The state made ready to step, changed only where that takes it: `Running`, no fault latched, and `pc` at the entry
0x200 where it could not fetch. -/
def State.readied (s : State) : State :=
  { s with
    runState := .running
    fault := none
    pc := if s.fetchOutOfBounds then 0x200#16 else s.pc }

/-- The state with a table word's two bytes where the next step fetches, so that this step runs that instruction
(DESIGN CHOICE, safe, log entry 7). -/
def State.withFetchWord (s : State) (nbits w : Nat) : State :=
  { s.readied with
    memory := Memory.writeBytes s.readied.memory s.readied.pc.toNat (tableBytes nbits w) }

end Sys2Proof.Machine
end

