-- ==== Sys2Proof/Machine/Session.lean ====
section
/-! DEFINITION. The host's side: the five commands of 00_scope.md R4, the boot lifecycle of 70_reset_and_hazards.md R152
that says when `LoadRom` and `Step` have a meaning, and the read-only views of R5. -/

namespace Sys2Proof.Machine

/-! ## What each command does to the core's state -/

/-- `Initialize`, 70_reset_and_hazards.md R150: the reset state, whatever the state was. -/
def resetCore (_ : State) : State := State.reset

/-- `LoadRom(bytes)`, 70_reset_and_hazards.md R151: nothing (for `RomTooLarge`) above 3584 bytes, else the bytes copied to
0x200 onward and nothing else changed. -/
def loadRom (bytes : List Byte) (s : State) : Option State :=
  if bytes.length > 3584 then none
  else some { s with memory := Memory.writeBytes s.memory 0x200 bytes }

/-- `PauseToggle`, 60_exceptions.md R133. -/
def pauseToggle (s : State) : State :=
  { s with runState :=
      match s.runState with
      | .running => .paused
      | .paused => .running
      | .quit => .quit }

/-- `Quit`, 60_exceptions.md R133. -/
def quitRun (s : State) : State := { s with runState := .quit }

/-! ## The boot lifecycle -/

/-- Where the host is in the lifecycle of 70_reset_and_hazards.md R152 (the model's own: DESIGN CHOICE, safe, log entry 6). -/
inductive BootPhase where
  /-- `Initialize` was the last command: the one moment at which `LoadRom` has a meaning (decision D12). -/
  | fresh
  /-- A `LoadRom` has succeeded: the program runs. -/
  | booted
  /-- The `LoadRom` failed: the core is held until the next `Initialize`. -/
  | failed
  /-- A `PauseToggle` or `Quit` came between `Initialize` and the `LoadRom`, which is then no longer immediately after
  `Initialize`: the core is held until the next `Initialize` (DEDUCED, safe, log entry 9). -/
  | missed
  deriving DecidableEq, Repr

/-- What a `PauseToggle` or a `Quit` makes of the boot: the moment for `LoadRom` is past, and nothing else
(00_scope.md section 6; the spec's own decision D12; log entry 9). -/
def passLoadMoment (p : BootPhase) : BootPhase :=
  match p with
  | .fresh => .missed
  | .booted => .booted
  | .failed => .failed
  | .missed => .missed

/-- The core, and where its boot has got to. There is none before the first `Initialize` (91_not_in_source.md N24). -/
structure Session where
  core : State
  phase : BootPhase
  deriving DecidableEq, Repr

/-- The five commands of the host, and no others (00_scope.md R4). -/
inductive Command where
  | init
  | loadRom (bytes : List Byte)
  | step
  | pauseToggle
  | quit
  deriving DecidableEq, Repr

/-- The one startup error the core raises (60_exceptions.md R127). -/
inductive StartupError where
  | romTooLarge
  deriving DecidableEq, Repr

/-- What a command gives back: the session after it, the error it returns, the diagnostic event it emits. -/
structure Reply where
  session : Session
  error : Option StartupError
  event : Option Diag
  deriving DecidableEq, Repr

/-- The session `Initialize` leaves. -/
def Session.fresh : Session := ⟨State.reset, .fresh⟩

/-- The host issues a command. `Initialize`, `PauseToggle` and `Quit` may be issued at any time, `LoadRom` once, immediately
after `Initialize`, `Step` after a successful boot (00_scope.md section 6; 70_reset_and_hazards.md R152; the spec's own
decision D12). So a `LoadRom` after a `PauseToggle` or `Quit` that followed `Initialize` is refused (DEDUCED, safe, log
entry 9), and so is a second `LoadRom` after a failed one (DEDUCED, safe, log entry 6). -/
def command (c : Command) (m : Session) : Host.Outcome Reply Fault Refusal :=
  match c with
  | .init => .next ⟨⟨resetCore m.core, .fresh⟩, none, none⟩
  | .loadRom bytes =>
    match m.phase with
    | .fresh =>
      match loadRom bytes m.core with
      | some t => .next ⟨⟨t, .booted⟩, none, none⟩
      | none => .next ⟨⟨m.core, .failed⟩, some .romTooLarge, none⟩
    | .booted => .refused .lateLoadRom
    | .failed => .refused .lateLoadRom
    | .missed => .refused .lateLoadRom
  | .step =>
    match m.phase with
    | .booted =>
      match step m.core with
      | .next t => .next ⟨⟨t, .booted⟩, none, stepDiag m.core⟩
      | .fault r => .fault r
      | .refused r => .refused r
    | .fresh => .refused .stepBeforeBoot
    | .failed => .refused .stepBeforeBoot
    | .missed => .refused .stepBeforeBoot
  | .pauseToggle => .next ⟨⟨pauseToggle m.core, passLoadMoment m.phase⟩, none, none⟩
  | .quit => .next ⟨⟨quitRun m.core, passLoadMoment m.phase⟩, none, none⟩

/-- `Boot(bytes)`, 70_reset_and_hazards.md R152: the booted state, or no machine. -/
def boot (bytes : List Byte) : Option State := loadRom bytes State.reset

/-! ## Views (00_scope.md R5), all read-only -/

/-- The display view. -/
def viewDisplay (m : Session) : Display := m.core.display

/-- The run-state view. -/
def viewRunState (m : Session) : RunState := m.core.runState

/-- The fault latch, an output the spec adds (10_state.md R20). -/
def viewFault (m : Session) : Option FaultRecord := m.core.fault

end Sys2Proof.Machine
end

