-- ==== Sys2Proof/Safety.lean ====
section
/-! DEFINITION. What claims about runs are stated with: the invariant of the core, the absence of a fault, and the end of
a program. -/

namespace Sys2Proof.Machine

/-- What holds of every state a run can reach, and what every step keeps. -/
structure State.Inv (s : State) : Prop where
  /-- Memory is in its canonical form (the model's: DESIGN CHOICE, safe, log entry 2). -/
  memory_wf : Memory.wf s.memory = true
  /-- `I` is at most 0x0FFF (10_state.md R13, "its value is always at most 0x0FFF"). -/
  i_le : s.i.toNat ≤ 0xFFF
  /-- `pc` is at most 0x1000 (10_state.md R14, "The values `pc` can ever hold are 0x0000 to 0x1000"). -/
  pc_le : s.pc.toNat ≤ 0x1000
  /-- Every live entry of the call stack is a `pc` that was pushed (10_state.md R14, R15). -/
  stack_le : ∀ (k : Nat) (hk : k < 16), k < s.depth.val → (s.stack[k]'hk).toNat ≤ 0x1000
  /-- The timers hold 0 from reset onward (10_state.md R16, the spec's own decision D18). -/
  timers_zero : s.delayTimer = 0#8 ∧ s.soundTimer = 0#8
  /-- The keypad holds all false from reset onward (10_state.md R18, the spec's own decision D18). -/
  keypad_off : ∀ (k : Nat) (hk : k < 16), (s.keypad[k]'hk) = false
  /-- A latched fault's address is the `pc` the core stopped at (60_exceptions.md R129, R131, the spec's
  own decision D3; log entry 4). -/
  fault_pc : ∀ r, s.fault = some r → r.faultPc = s.pc

/-- A run is safe as long as no fault is latched: a faulted state is never the normal end of a run
(60_exceptions.md R131). -/
def State.Safe (s : State) : Prop := s.fault = none

/-- The program has finished, in the sense 70_reset_and_hazards.md R159 offers: a core that runs is at a fixed point of
`Step`. It does not say that the host quits, steps, or looks. -/
def State.Finished (s : State) : Prop :=
  s.runState = .running ∧ s.fault = none ∧ step s = .next s

/-- The invariant of a session: the core's; where `LoadRom` has its meaning the core is exactly as reset leaves it; and a
core that is not booted has not run (70_reset_and_hazards.md R152, the spec's own decision D12; the phases are the model's:
DESIGN CHOICE, safe, log entry 6; what `PauseToggle` and `Quit` make of them: DEDUCED, safe, log entry 9). -/
structure Session.Inv (m : Session) : Prop where
  core : m.core.Inv
  fresh : m.phase = .fresh → m.core = State.reset
  unrun : m.phase ≠ .booted → { m.core with runState := .running } = State.reset

end Sys2Proof.Machine
end

