-- ==== Sys2Proof/WellFormed.lean ====
section
/-! DEFINITION. Which terms of `Instr` are instructions. Every field value is legal for every instruction that uses it
(30_encoding.md R53), and the field types hold nothing else, so the one check is on `unimpl`: its word must be one of the
40928 that are not one of the eight instructions. -/

namespace Sys2Proof

/-- The words of `UNIMPL`, as 45_unimplemented.md R110 lists them under "Encoding". It is written with Nat arithmetic on
the word (30_encoding.md R51 "In arithmetic") and does not call the decoder, so that a statement relating the two says
something. -/
def isUnimplWord (w : Word) : Bool :=
  let opClass := w.toNat / 4096
  let nn := w.toNat % 256
  [0x3, 0x4, 0x5, 0x8, 0x9, 0xB, 0xC, 0xE, 0xF].contains opClass
    || (opClass == 0x0 && nn != 0xE0 && nn != 0xEE)

/-- The instruction is one that some word encodes. -/
def Instr.wellFormed : Instr → Bool
  | .cls => true
  | .ret => true
  | .jp _ => true
  | .call _ => true
  | .ldVx _ _ => true
  | .addVx _ _ => true
  | .ldI _ => true
  | .drw _ _ _ => true
  | .unimpl w => isUnimplWord w

end Sys2Proof
end

