-- ==== Sys2Proof/Certificates/Slice0/Obligations.lean ====
section
/-! DEFINITION. The statements for the provers, from the spec's numbered rules. Where a statement rests on a point that the
spec marks as its own decision or derivation, or on a choice of the model, its docstring says so. A result statement says
that `exec` answers a next state and gives the whole of it, so it is also the instruction's completion and its frame: a
field the record update does not name is unchanged. `exec` is given the state at the start of the step, where `pc` is the
instruction's own address. -/

open Sys2Proof Sys2Proof.Machine

/-! ## Encoding and decoding -/

/-- 30_encoding.md R51: the six fields, and the two identities between them, in the rule's own arithmetic. -/
def Obligations.FieldsAreTheBits : Prop :=
  ∀ w : Word,
    (opClass w).toNat = w.toNat / 4096 ∧
    (fieldX w).toNat = w.toNat / 256 % 16 ∧
    (fieldY w).toNat = w.toNat / 16 % 16 ∧
    (fieldN w).toNat = w.toNat % 16 ∧
    (fieldNN w).toNat = w.toNat % 256 ∧
    (fieldNNN w).toNat = w.toNat % 4096 ∧
    (fieldNN w).toNat = (fieldY w).toNat * 16 + (fieldN w).toNat ∧
    (fieldNNN w).toNat = (fieldX w).toNat * 256 + (fieldNN w).toNat

/-- 30_encoding.md R54: the decoder's algorithm on every word, with the fields as R51's arithmetic gives them. Each clause
is an exclusive case of the class nibble (and, in class 0, of `NN`), and together they cover all 65536 words. -/
def Obligations.DecodeFollowsAlgorithm : Prop :=
  ∀ w : Word,
    decodeWord w =
      (let c := w.toNat / 4096
       let x := BitVec.ofNat 4 (w.toNat / 256)
       let y := BitVec.ofNat 4 (w.toNat / 16)
       let n := BitVec.ofNat 4 w.toNat
       let nn := BitVec.ofNat 8 w.toNat
       let nnn := BitVec.ofNat 12 w.toNat
       if c = 0x0 ∧ w.toNat % 256 = 0xE0 then .cls
       else if c = 0x0 ∧ w.toNat % 256 = 0xEE then .ret
       else if c = 0x1 then .jp nnn
       else if c = 0x2 then .call nnn
       else if c = 0x6 then .ldVx x nn
       else if c = 0x7 then .addVx x nn
       else if c = 0xA then .ldI nnn
       else if c = 0xD then .drw x y n
       else .unimpl w)

/-- 30_encoding.md section 3 (R55): the first row of the opcode table that a word matches names the instruction it decodes
to, and no word matches two of the eight instruction rows. -/
def Obligations.OpcodeTableAgrees : Prop :=
  (∀ w : Word,
    (opcodeTable.find? (fun r => rowMatches r w)).map (fun r => r.mnemonic) = some (decodeWord w).mnemonic) ∧
  instructionRows.Pairwise (fun r r' => ∀ w : Word, ¬ (rowMatches r w = true ∧ rowMatches r' w = true))

/-- 30_encoding.md section 3: decoding the encoding of a well-formed instruction gives it back, whatever its operands. -/
def Obligations.DecodeEncodeRoundTrip : Prop :=
  ∀ i : Instr, i.wellFormed = true → decodeWord (encode i) = i

/-- 30_encoding.md section 3, 20_memory.md section 3: the same through bytes in memory order, whatever bytes follow, and
through the numbering of opcode_table.json. -/
def Obligations.DecodeBytesRoundTrip : Prop :=
  ∀ (i : Instr) (rest : List Byte), i.wellFormed = true →
    decode (encodeBytes i ++ rest) = .ok (i, rest) ∧ decodeTableWord 16 (encode i).toNat = some i

/-- 30_encoding.md sections 3 and 4: encoding what a word decodes to gives the word back, with the ignored `X` nibble of
`CLS` and `RET` cleared (the spec's own decision D7). -/
def Obligations.EncodeDecodeCanonical : Prop :=
  ∀ w : Word, encode (decodeWord w) = canonicalWord w

/-- 30_encoding.md sections 3 and 5: every word decodes to a well-formed instruction; it decodes to `UNIMPL` exactly when
45_unimplemented.md lists it under "Encoding". -/
def Obligations.DecodeIsWellFormed : Prop :=
  ∀ w : Word, (decodeWord w).wellFormed = true ∧ (decodeWord w = .unimpl w ↔ isUnimplWord w = true)

/-- The words of 30_encoding.md section 8 (the source's ROM) and V-DEC-2, V-DEC-4, V-DEC-5, V-DEC-6, V-FETCH-1, V-ADD-1,
V-CALL-1 of 95_test_vectors.md, as bytes in memory order. A sanity statement. -/
def Obligations.SampleWordsDecode : Prop :=
  decode [0x00#8, 0xE0#8] = .ok (.cls, []) ∧
  decode [0x60#8, 0x05#8] = .ok (.ldVx 0x0#4 0x05#8, []) ∧
  decode [0x61#8, 0x0A#8] = .ok (.ldVx 0x1#4 0x0A#8, []) ∧
  decode [0xA2#8, 0x00#8] = .ok (.ldI 0x200#12, []) ∧
  decode [0xD0#8, 0x15#8] = .ok (.drw 0x0#4 0x1#4 0x5#4, []) ∧
  decode [0xAB#8, 0xCD#8] = .ok (.ldI 0xBCD#12, []) ∧
  decode [0x01#8, 0xE0#8] = .ok (.cls, []) ∧
  decode [0x0F#8, 0xEE#8] = .ok (.ret, []) ∧
  decode [0x00#8, 0xE1#8] = .ok (.unimpl 0x00E1#16, []) ∧
  decode [0x12#8, 0x34#8] = .ok (.jp 0x234#12, []) ∧
  decode [0x73#8, 0x02#8] = .ok (.addVx 0x3#4 0x02#8, []) ∧
  decode [0x22#8, 0x06#8] = .ok (.call 0x206#12, [])

/-! ## Memory and reset -/

/-- 10_state.md section 13: the state after `Initialize`. The cleared stack slots and the empty latch are the spec's own
decisions D13 and D3; the font bytes are the open parameter FONT (D9), and the statement holds for every table. -/
def Obligations.ResetState : Prop :=
  (∀ (a : Nat) (h : a < 80), State.reset.byteAt a = Config.font ⟨a, h⟩) ∧
  (∀ a : Nat, 80 ≤ a → a < 4096 → State.reset.byteAt a = 0#8) ∧
  (∀ x : Nibble, State.reset.readV x = 0#8) ∧
  State.reset.i = 0#16 ∧
  State.reset.pc = 0x200#16 ∧
  State.reset.depth.val = 0 ∧
  (∀ (k : Nat) (hk : k < 16), State.reset.stack[k]'hk = 0#16) ∧
  State.reset.delayTimer = 0#8 ∧
  State.reset.soundTimer = 0#8 ∧
  (∀ col row, State.reset.cell col row = false) ∧
  (∀ (k : Nat) (hk : k < 16), State.reset.keypad[k]'hk = false) ∧
  State.reset.runState = .running ∧
  State.reset.fault = none

/-- 20_memory.md section 1: memory is its 4096 bytes and nothing else, so two canonical memories that read alike at every
address are equal (the model's convention, log entry 2). -/
def Obligations.MemoryIsItsBytes : Prop :=
  ∀ m m' : Memory, Memory.wf m = true → Memory.wf m' = true →
    (∀ a : Nat, a < 4096 → Memory.byteAt m a = Memory.byteAt m' a) → m = m'

/-! ## The step -/

/-- 20_memory.md R34: the opcode is the byte at `pc` times 256 plus the byte at `pc + 1`, and the decoder reads these two
bytes in this order. -/
def Obligations.FetchIsBigEndian : Prop :=
  ∀ s : State,
    s.fetchWord.toNat = (s.byteAt s.pc.toNat).toNat * 256 + (s.byteAt (s.pc.toNat + 1)).toNat ∧
    decode [s.byteAt s.pc.toNat, s.byteAt (s.pc.toNat + 1)] = .ok (decodeWord s.fetchWord, [])

/-- A step runs the decoded instruction (40_fetch_decode_step.md section 2): when the core may step and the two bytes at
`pc` lie in memory and decode to `i`, the step is `exec i` on the state as it is. The model's step adds nothing around
`exec`: the advance of `pc` is made by each meaning. -/
def Obligations.StepRunsDecoded : Prop :=
  ∀ (s : State) (i : Instr), s.runState = .running → s.fault = none → s.pc.toNat ≤ 4094 →
    decode [s.byteAt s.pc.toNat, s.byteAt (s.pc.toNat + 1)] = .ok (i, []) → step s = exec i s

/-- 40_fetch_decode_step.md section 1 (R70; the spec's own decisions D3 and D11): however often a core that is not `Running`
or that has a fault latched is stepped, it does not change, and no step of it emits an event. -/
def Obligations.StepGated : Prop :=
  ∀ (s : State) (n : Nat), (s.runState ≠ .running ∨ s.fault ≠ none) →
    Host.Core.run Sys2Proof.core n s = .next s ∧ stepDiag s = none

/-- 40_fetch_decode_step.md section 3, 60_exceptions.md section 1: a fetch above 4094 latches
`ProgramCounterOutOfBounds` with that `pc` and changes nothing else (what the latch holds is the spec's own decision D3);
at 4094 and below, odd addresses included, the step executes the word there. -/
def Obligations.FetchBound : Prop :=
  ∀ s : State, s.runState = .running → s.fault = none →
    (4094 < s.pc.toNat → step s = .next { s with fault := some ⟨.programCounterOutOfBounds, s.pc⟩ }) ∧
    (s.pc.toNat ≤ 4094 →
      step s = exec (decodeWord (BitVec.ofNat 16
        ((s.byteAt s.pc.toNat).toNat * 256 + (s.byteAt (s.pc.toNat + 1)).toNat))) s)

/-- The MODEL's choice (log entry 4: DEDUCED from the spec's own decision D3 in 60_exceptions.md section 6, and DESIGN
CHOICE): a fault is a next state with the latch set, the type `Fault` is empty, and so no state stops the model; every step
of 40_fetch_decode_step.md section 2 and every instruction has a next state. -/
def Obligations.StepAlwaysNext : Prop :=
  (∀ s : State, ∃ t : State, step s = .next t) ∧ (∀ (i : Instr) (s : State), ∃ t : State, exec i s = .next t)

/-- 40_fetch_decode_step.md R72: when a step executes an instruction without a fault, every instruction but `JP`, `CALL`
and `RET` ends with `pc` advanced by 2, as a number, without wrapping and at most 4096; `CALL` pushes the advanced value;
`JP`, `CALL` and `RET` overwrite it. -/
def Obligations.AdvanceOfPc : Prop :=
  ∀ s t : State, s.runState = .running → s.fault = none → s.pc.toNat ≤ 4094 → step s = .next t → t.fault = none →
    match decodeWord s.fetchWord with
    | .jp nnn => t.pc.toNat = nnn.toNat
    | .call nnn => t.pc.toNat = nnn.toNat ∧
        ∃ h : s.depth.val < 16, (t.stack[s.depth.val]'h).toNat = s.pc.toNat + 2
    | .ret => 0 < s.depth.val ∧ ∃ h : s.depth.val - 1 < 16, t.pc = s.stack[s.depth.val - 1]'h
    | _ => t.pc.toNat = s.pc.toNat + 2 ∧ t.pc.toNat ≤ 4096

/-- The model's own placing of an instruction (log entry 7): a table word placed by `withFetchWord` is what the next step
runs, from any state whose memory is canonical. -/
def Obligations.PlacedWordRuns : Prop :=
  ∀ (s : State) (w : Nat), Memory.wf s.memory = true →
    step (s.withFetchWord 16 w) = exec (decodeWord (BitVec.ofNat 16 w)) (s.withFetchWord 16 w)

/-! ## Control transfer -/

/-- 41_control_transfer.md R81: `pc` becomes `NNN` exactly, whatever it was, for every `NNN`; nothing else changes, no
fault. -/
def Obligations.JpResult : Prop :=
  ∀ (nnn : Addr12) (s : State), exec (.jp nnn) s = .next { s with pc := BitVec.ofNat 16 nnn.toNat }

/-- 41_control_transfer.md R82: below depth 16 the address after the `CALL` is pushed and `pc` becomes `NNN`; at depth 16
`CallStackOverflow` is latched and nothing else happens (what the latch holds is the spec's own decision D3,
60_exceptions.md section 6). Memory is not written. -/
def Obligations.CallResult : Prop :=
  ∀ (nnn : Addr12) (s : State),
    (∀ h : s.depth.val < 16,
      exec (.call nnn) s = .next { s with
        stack := s.stack.set s.depth.val (s.pc + 2#16) h
        depth := ⟨s.depth.val + 1, Nat.succ_lt_succ h⟩
        pc := BitVec.ofNat 16 nnn.toNat }) ∧
    (s.depth.val = 16 → exec (.call nnn) s = .next { s with fault := some ⟨.callStackOverflow, s.pc⟩ })

/-- 41_control_transfer.md R80: above depth 0 the top entry goes to `pc`, unchecked, and is counted off, its slot kept; at
depth 0 `CallStackUnderflow` is latched and nothing else happens (what the latch holds is the spec's own decision D3,
60_exceptions.md section 6). -/
def Obligations.RetResult : Prop :=
  ∀ s : State,
    (∀ (_ : 0 < s.depth.val) (h : s.depth.val - 1 < 16) (h' : s.depth.val - 1 < 17),
      exec .ret s = .next { s with pc := s.stack[s.depth.val - 1]'h, depth := ⟨s.depth.val - 1, h'⟩ }) ∧
    (s.depth.val = 0 → exec .ret s = .next { s with fault := some ⟨.callStackUnderflow, s.pc⟩ })

/-- 41_control_transfer.md, "The call and return round trip" (R83, derived by the spec): after a `CALL` at address A, a
`RET` in any state with the same depth and the same top entry leaves `pc` at A + 2 and `depth` as before the `CALL`. -/
def Obligations.CallRetRoundTrip : Prop :=
  ∀ (nnn : Addr12) (s : State) (h : s.depth.val < 16),
    ∃ t : State, exec (.call nnn) s = .next t ∧
      ∀ u : State, u.depth = t.depth → u.stack[s.depth.val]'h = t.stack[s.depth.val]'h →
        ∃ r : State, exec .ret u = .next r ∧ r.pc = s.pc + 2#16 ∧ r.depth = s.depth

/-! ## Register operations and addressing -/

/-- 42_register_ops.md R90: `V[X]` becomes `NN`, for every `X`, VF included; the other registers and everything else but
the advanced `pc` are unchanged. -/
def Obligations.LdVxResult : Prop :=
  ∀ (x : Nibble) (nn : Byte) (s : State),
    ∃ t : State, exec (.ldVx x nn) s = .next t ∧
      t.readV x = nn ∧ (∀ y : Nibble, y ≠ x → t.readV y = s.readV y) ∧
      t = { s with v := t.v, pc := s.pc + 2#16 }

/-- 42_register_ops.md R91: `V[X]` becomes the sum modulo 256, for every `X`; the other registers, VF among them, and
everything else but the advanced `pc` are unchanged: no carry is written anywhere. -/
def Obligations.AddVxResult : Prop :=
  ∀ (x : Nibble) (nn : Byte) (s : State),
    ∃ t : State, exec (.addVx x nn) s = .next t ∧
      (t.readV x).toNat = ((s.readV x).toNat + nn.toNat) % 256 ∧
      (∀ y : Nibble, y ≠ x → t.readV y = s.readV y) ∧
      t = { s with v := t.v, pc := s.pc + 2#16 }

/-- 43_memory_addressing.md R95: `I` becomes `NNN`, unchecked; everything else but the advanced `pc` is unchanged. -/
def Obligations.LdIResult : Prop :=
  ∀ (nnn : Addr12) (s : State),
    exec (.ldI nnn) s = .next { s with i := BitVec.ofNat 16 nnn.toNat, pc := s.pc + 2#16 }

/-! ## The draw buffer -/

/-- 44_draw_buffer.md R100: every cell off, for any display before; VF and everything else but the advanced `pc` are
unchanged. -/
def Obligations.ClsResult : Prop :=
  ∀ s : State,
    ∃ t : State, exec .cls s = .next t ∧ (∀ col row, t.cell col row = false) ∧
      t = { s with display := t.display, pc := s.pc + 2#16 }

/-- 60_exceptions.md section 1 (R124, the spec's own decision D5): when a row that vertical clipping leaves would be read
above 0xFFF, `DRW` latches `SpriteAddressOutOfBounds` and changes nothing else, VF included. -/
def Obligations.DrwFaults : Prop :=
  ∀ (x y n : Nibble) (s : State),
    1 ≤ min n.toNat (32 - (s.readV y).toNat % 32) →
    0xFFF < s.i.toNat + min n.toNat (32 - (s.readV y).toNat % 32) - 1 →
    exec (.drw x y n) s = .next { s with fault := some ⟨.spriteAddressOutOfBounds, s.pc⟩ }

/-- 44_draw_buffer.md, the closed form that R101 derives, of the loops it defines `DRW` by; the condition for it to execute
is that of R124 (the spec's own decision D5), and the coordinates come from the registers before VF is written (the
spec's own decision D17, log entry 11). A cell (x0 + j, y0 + r) with `r < rows` and `j < 8` changes by bit `7 - j` of the
byte at `I + r`; the display's edge clips; no other cell changes; VF is 1 or 0 as some 1 bit of the rectangle lay over a cell that was on; the other registers and
everything else but the advanced `pc` are unchanged. -/
def Obligations.DrwClosedForm : Prop :=
  ∀ (x y n : Nibble) (s : State) (x0 y0 rows : Nat),
    x0 = (s.readV x).toNat % 64 → y0 = (s.readV y).toNat % 32 → rows = min n.toNat (32 - y0) →
    ¬ (1 ≤ rows ∧ 0xFFF < s.i.toNat + rows - 1) →
    ∃ t : State, exec (.drw x y n) s = .next t ∧
      (∀ (col : Fin 64) (row : Fin 32),
        t.cell col row =
          if x0 ≤ col.val ∧ col.val < x0 + 8 ∧ y0 ≤ row.val ∧ row.val < y0 + rows then
            (s.cell col row ^^
              Nat.testBit (s.byteAt (s.i.toNat + (row.val - y0))).toNat (7 - (col.val - x0)))
          else s.cell col row) ∧
      ((t.readV 0xF#4 = 1#8 ∧ ∃ (col : Fin 64) (row : Fin 32),
          (x0 ≤ col.val ∧ col.val < x0 + 8 ∧ y0 ≤ row.val ∧ row.val < y0 + rows) ∧
          Nat.testBit (s.byteAt (s.i.toNat + (row.val - y0))).toNat (7 - (col.val - x0)) = true ∧
          s.cell col row = true) ∨
       (t.readV 0xF#4 = 0#8 ∧ ∀ (col : Fin 64) (row : Fin 32),
          (x0 ≤ col.val ∧ col.val < x0 + 8 ∧ y0 ≤ row.val ∧ row.val < y0 + rows) →
          Nat.testBit (s.byteAt (s.i.toNat + (row.val - y0))).toNat (7 - (col.val - x0)) = true →
          s.cell col row = false)) ∧
      (∀ z : Nibble, z ≠ 0xF#4 → t.readV z = s.readV z) ∧
      t = { s with display := t.display, v := t.v, pc := s.pc + 2#16 }

/-- 44_draw_buffer.md corner case 9, the source's property "drawing the identical sprite twice at the same coordinates with
no other writes between returns the display to its pre-first-draw state": for every `DRW` that executes, VF as a coordinate
included where the two draws start at the same place. The condition for the first `DRW` to execute is that of R124, the
spec's own decision D5; that the first draw takes a coordinate from VF before writing it is the spec's own decision D17 (log
entry 11). The second VF is 1 exactly when a cell that was off came on in the first draw. -/
def Obligations.DoubleDrawRestores : Prop :=
  ∀ (x y n : Nibble) (s t : State),
    ¬ (1 ≤ min n.toNat (32 - (s.readV y).toNat % 32) ∧
       0xFFF < s.i.toNat + min n.toNat (32 - (s.readV y).toNat % 32) - 1) →
    exec (.drw x y n) s = .next t →
    (t.readV x).toNat % 64 = (s.readV x).toNat % 64 → (t.readV y).toNat % 32 = (s.readV y).toNat % 32 →
    ∃ u : State, exec (.drw x y n) t = .next u ∧ (∀ col row, u.cell col row = s.cell col row) ∧
      (u.readV 0xF#4 = 1#8 ↔ ∃ col row, s.cell col row = false ∧ t.cell col row = true)

/-- 44_draw_buffer.md, "Laws of the draw buffer" (R102, derived by the spec): a step changes a cell only if it executes a
`CLS` that finds the cell on, or a `DRW` that covers it with a sprite bit equal to 1. -/
def Obligations.DisplayWriters : Prop :=
  ∀ (s t : State) (col : Fin 64) (row : Fin 32), step s = .next t → t.cell col row ≠ s.cell col row →
    s.runState = .running ∧ s.fault = none ∧ s.pc.toNat ≤ 4094 ∧
    ((decodeWord s.fetchWord = .cls ∧ s.cell col row = true) ∨
     (∃ x y n : Nibble, decodeWord s.fetchWord = .drw x y n ∧
        (s.readV x).toNat % 64 ≤ col.val ∧ col.val < (s.readV x).toNat % 64 + 8 ∧
        (s.readV y).toNat % 32 ≤ row.val ∧ row.val < (s.readV y).toNat % 32 + n.toNat ∧
        Nat.testBit (s.byteAt (s.i.toNat + (row.val - (s.readV y).toNat % 32))).toNat
          (7 - (col.val - (s.readV x).toNat % 64)) = true))

/-! ## Unimplemented opcodes -/

/-- 45_unimplemented.md (R110; the event is the spec's own decision D6): an unimplemented opcode changes nothing but the
advanced `pc`, sets no fault, and its step emits `Diag` with its address and its word. -/
def Obligations.UnimplResult : Prop :=
  ∀ (w : Word) (s : State),
    exec (.unimpl w) s = .next { s with pc := s.pc + 2#16 } ∧ diagOf (.unimpl w) s = some ⟨s.pc, w⟩

/-- 10_state.md section 11 (R21, the spec's own decision D6): a step emits a diagnostic event exactly when it executes an
unimplemented opcode, and the event carries the address and the word. -/
def Obligations.DiagExactlyUnimpl : Prop :=
  ∀ (s : State) (d : Diag),
    stepDiag s = some d ↔
      s.runState = .running ∧ s.fault = none ∧ s.pc.toNat ≤ 4094 ∧ isUnimplWord s.fetchWord = true ∧
        d = ⟨s.pc, s.fetchWord⟩

/-! ## Whole-machine rules and frames -/

/-- 20_memory.md section 2 (R33, derived by the spec): no instruction and no step writes memory; every byte of every address
reads as before. -/
def Obligations.MemoryNeverWritten : Prop :=
  (∀ (i : Instr) (s t : State), exec i s = .next t → ∀ a : Nat, t.byteAt a = s.byteAt a) ∧
  (∀ s t : State, step s = .next t → ∀ a : Nat, t.byteAt a = s.byteAt a)

/-- 10_state.md section 3: a V register changes only as the `X` of `LD Vx` or `ADD Vx`, or as VF by `DRW`. -/
def Obligations.RegisterWriters : Prop :=
  ∀ (i : Instr) (s t : State) (r : Nibble), exec i s = .next t → t.readV r ≠ s.readV r →
    (∃ nn, i = .ldVx r nn) ∨ (∃ nn, i = .addVx r nn) ∨ (r = 0xF#4 ∧ ∃ x y n, i = .drw x y n)

/-- 10_state.md sections 5, 7, 9: `I` changes only by `LD I`, the stack's slots only by `CALL`, `depth` only by `CALL` and
`RET`, the display only by `CLS` and `DRW`, the fault latch only by `CALL`, `RET` and `DRW` (60_exceptions.md section 5). -/
def Obligations.OtherWriters : Prop :=
  ∀ (i : Instr) (s t : State), exec i s = .next t →
    (t.i ≠ s.i → ∃ nnn, i = .ldI nnn) ∧
    (t.stack ≠ s.stack → ∃ nnn, i = .call nnn) ∧
    (t.depth ≠ s.depth → (∃ nnn, i = .call nnn) ∨ i = .ret) ∧
    (t.display ≠ s.display → i = .cls ∨ ∃ x y n, i = .drw x y n) ∧
    (t.fault ≠ s.fault → (∃ nnn, i = .call nnn) ∨ i = .ret ∨ ∃ x y n, i = .drw x y n)

/-- 10_state.md sections 8, 10, 11: no step and no instruction writes a timer, the keypad or the run state (that the timers
and the keypad have no input is the spec's own decision D18). -/
def Obligations.InertState : Prop :=
  (∀ (i : Instr) (s t : State), exec i s = .next t →
    t.delayTimer = s.delayTimer ∧ t.soundTimer = s.soundTimer ∧ t.keypad = s.keypad ∧ t.runState = s.runState) ∧
  (∀ s t : State, step s = .next t →
    t.delayTimer = s.delayTimer ∧ t.soundTimer = s.soundTimer ∧ t.keypad = s.keypad ∧ t.runState = s.runState)

/-- 60_exceptions.md section 6 (R129, the spec's own decision D3): faults are precise; a step that changes the latch changes
nothing else, and records its cause with the `pc` it started from. -/
def Obligations.FaultsArePrecise : Prop :=
  ∀ s t : State, step s = .next t → t.fault ≠ s.fault →
    ∃ c : FaultCause, t = { s with fault := some ⟨c, s.pc⟩ }

/-- 60_exceptions.md section 1, the table (R120; the fourth cause and the latch are the spec's own decisions D5 and D3):
each cause is latched by a step of a core without a fault exactly under its condition. -/
def Obligations.FaultCauses : Prop :=
  ∀ s t : State, s.runState = .running → s.fault = none → step s = .next t →
    (t.fault = some ⟨.programCounterOutOfBounds, s.pc⟩ ↔ 4094 < s.pc.toNat) ∧
    (t.fault = some ⟨.callStackOverflow, s.pc⟩ ↔
      s.pc.toNat ≤ 4094 ∧ (∃ nnn, decodeWord s.fetchWord = .call nnn) ∧ s.depth.val = 16) ∧
    (t.fault = some ⟨.callStackUnderflow, s.pc⟩ ↔
      s.pc.toNat ≤ 4094 ∧ decodeWord s.fetchWord = .ret ∧ s.depth.val = 0) ∧
    (t.fault = some ⟨.spriteAddressOutOfBounds, s.pc⟩ ↔
      s.pc.toNat ≤ 4094 ∧ ∃ x y n, decodeWord s.fetchWord = .drw x y n ∧
        1 ≤ min n.toNat (32 - (s.readV y).toNat % 32) ∧
        0xFFF < s.i.toNat + min n.toNat (32 - (s.readV y).toNat % 32) - 1)

/-- 70_reset_and_hazards.md section 4 (R154, derived by the spec): a program that meets the four conditions the rule lists
stays safe: from a core without a fault, the step latches none. -/
def Obligations.WellBehavedStepIsSafe : Prop :=
  ∀ s t : State, s.Safe → s.pc.toNat ≤ 4094 →
    (∀ nnn, decodeWord s.fetchWord = .call nnn → s.depth.val < 16) →
    (decodeWord s.fetchWord = .ret → 0 < s.depth.val) →
    (∀ x y n, decodeWord s.fetchWord = .drw x y n →
      s.i.toNat + min n.toNat (32 - (s.readV y).toNat % 32) ≤ 0x1000) →
    step s = .next t → t.Safe

/-- 40_fetch_decode_step.md section 5 (R74), 10_state.md sections 8 and 10: what a step does depends on nothing that no
instruction reads. Two states that differ only in the timers and the keypad step alike. -/
def Obligations.UnreadStateDoesNotMatter : Prop :=
  ∀ (s t : State) (d u : Byte) (k : Vector Bool 16), step s = .next t →
    step { s with delayTimer := d, soundTimer := u, keypad := k } =
      .next { t with delayTimer := d, soundTimer := u, keypad := k }

/-- 10_state.md section 5 (R13): `I` is read only by `DRW`: any other instruction does the same whatever `I` holds, and
leaves it, `LD I` apart, as it found it. -/
def Obligations.IndexReadOnlyByDrw : Prop :=
  ∀ (i : Instr) (s t : State) (a : Word), (¬ ∃ x y n, i = .drw x y n) → exec i s = .next t →
    exec i { s with i := a } = .next { t with i := match i with | .ldI nnn => BitVec.ofNat 16 nnn.toNat | _ => a }

/-- 10_state.md section 7 (R15): a slot of the call stack at `depth` or above is dead: no step's effect on anything but that
slot depends on what it holds. -/
def Obligations.DeadSlotsDoNotMatter : Prop :=
  ∀ (s t : State) (k : Nat) (hk : k < 16) (a : Word), s.depth.val ≤ k → step s = .next t →
    ∃ b : Word, step { s with stack := s.stack.set k a hk } = .next { t with stack := t.stack.set k b hk }

/-- The invariants of the core and of the session hold at reset. The bounds on `I`, `pc` and the return addresses are those
the spec derives in 10_state.md sections 5 and 6. The rest is no plain word of the source: that memory is a canonical list
is the MODEL's choice (log entry 2, DESIGN CHOICE), and so is the session's phase (log entry 6, DESIGN CHOICE); that the
timers and the keypad have no input is the spec's own decision D18, and the latch is its own decision D3 (log entry 4). -/
def Obligations.InvReset : Prop :=
  State.reset.Inv ∧ Session.fresh.Inv

/-- Every step keeps the invariant of the core: `I` at most 0xFFF, `pc` and every live return address at most 0x1000, which
the spec derives in 10_state.md sections 5 and 6; canonical memory, which is the MODEL's choice (log entry 2, DESIGN
CHOICE); the timers 0 and the keypad off, by the spec's own decision D18; the latched address the `pc`, by the spec's own
decision D3 (log entry 4). -/
def Obligations.InvStep : Prop :=
  ∀ s t : State, s.Inv → step s = .next t → t.Inv

/-- Every command of the host (00_scope.md section 6; 70_reset_and_hazards.md sections 1 to 3) keeps the invariant of the
session. What that invariant says of the phases is the MODEL's choice: the phases themselves (log entry 6, DESIGN CHOICE and
DEDUCED, which follows the spec's own decision D12), and that a `PauseToggle` or `Quit` before the `LoadRom` ends the fresh
phase (log entry 9, DEDUCED, from D12 too). So is the canonical memory of the core's invariant (log entry 2, DESIGN CHOICE); its timers and keypad
rest on the spec's own decision D18 and its latch on D3 (log entry 4). -/
def Obligations.InvCommand : Prop :=
  ∀ (c : Command) (m : Session) (r : Reply), m.Inv → command c m = .next r → r.session.Inv

/-- 70_reset_and_hazards.md section 7 (R159, the spec's own decision D15): a running core at a jump to its own address has
finished: the state is a fixed point of `Step`. -/
def Obligations.SelfJumpFinishes : Prop :=
  ∀ (s : State) (nnn : Addr12), s.runState = .running → s.fault = none → s.pc.toNat ≤ 4094 →
    decodeWord s.fetchWord = .jp nnn → nnn.toNat = s.pc.toNat → s.Finished

/-! ## The host's commands -/

/-- 70_reset_and_hazards.md section 1 (R150; the stack slots and the latch are the spec's own decisions D13, D3):
`Initialize` gives the reset state in any state, and cannot fail. The rest is the MODEL's choice: the boot phase `fresh` the
session goes to (log entry 6, DESIGN CHOICE), and that the reply carries no event (log entry 5, DESIGN CHOICE). -/
def Obligations.InitializeResult : Prop :=
  ∀ m : Session, command .init m = .next ⟨⟨State.reset, .fresh⟩, none, none⟩

/-- 70_reset_and_hazards.md section 2: a ROM above 3584 bytes fails with `RomTooLarge` and nothing is written; any other is
copied to 0x200 onward, and every other byte and every other piece of state is unchanged. The rest is the MODEL's choice:
that memory has a canonical form and keeps it (log entry 2, DESIGN CHOICE), the phases `failed` and `booted` the session
goes to (log entry 6, DESIGN CHOICE), and that the reply carries no event (log entry 5, DESIGN CHOICE). The statement is
about every core in the fresh phase; a run reaches that phase with the reset core only (log entry 9; `InvCommand`). -/
def Obligations.LoadRomResult : Prop :=
  ∀ (bytes : List Byte) (s : State), Memory.wf s.memory = true →
    (3584 < bytes.length →
      command (.loadRom bytes) ⟨s, .fresh⟩ = .next ⟨⟨s, .failed⟩, some .romTooLarge, none⟩) ∧
    (bytes.length ≤ 3584 →
      ∃ t : State, command (.loadRom bytes) ⟨s, .fresh⟩ = .next ⟨⟨t, .booted⟩, none, none⟩ ∧
        (∀ (k : Nat) (hk : k < bytes.length), t.byteAt (0x200 + k) = bytes[k]) ∧
        (∀ a : Nat, a < 0x200 ∨ 0x200 + bytes.length ≤ a → t.byteAt a = s.byteAt a) ∧
        Memory.wf t.memory = true ∧ t = { s with memory := t.memory })

/-- 70_reset_and_hazards.md R155: after a boot `pc` is 0x200, and the first step executes the word of the ROM's first two
bytes, a byte the ROM does not have counting as 0 (an empty ROM gives 0x0000, unimplemented). -/
def Obligations.EntryPoint : Prop :=
  ∀ (bytes : List Byte) (s : State), boot bytes = some s →
    s.pc = 0x200#16 ∧
    s.fetchWord.toNat = (bytes.getD 0 0#8).toNat * 256 + (bytes.getD 1 0#8).toNat ∧
    step s = exec (decodeWord s.fetchWord) s ∧
    (bytes = [] → decodeWord s.fetchWord = .unimpl 0x0000#16)

/-- 60_exceptions.md section 10 (R133; that `PauseToggle` does nothing in `Quit`, and that a faulted core still takes both
commands, are the spec's own decisions D11 and D20): the run-state machine, in any phase and with any fault. -/
def Obligations.RunStateMachine : Prop :=
  ∀ m : Session,
    (∃ r, command .pauseToggle m = .next r ∧
      (m.core.runState = .running → r.session.core.runState = .paused) ∧
      (m.core.runState = .paused → r.session.core.runState = .running) ∧
      (m.core.runState = .quit → r.session.core.runState = .quit)) ∧
    (∃ r, command .quit m = .next r ∧ r.session.core.runState = .quit) ∧
    (∃ r, command .init m = .next r ∧ r.session.core.runState = .running)

/-- 00_scope.md section 6: `PauseToggle` and `Quit` write the run state of the core only. That the session has a phase is
the MODEL's choice (log entry 6, DESIGN CHOICE); that the two commands end the fresh one, where `LoadRom` is no longer
immediately after `Initialize`, and leave any other, is log entry 9 (DEDUCED, from the spec's own decision D12); that the reply carries no event is log entry 5 (DESIGN CHOICE). -/
def Obligations.HostWritesRunStateOnly : Prop :=
  ∀ (c : Command) (m : Session) (r : Reply), (c = .pauseToggle ∨ c = .quit) → command c m = .next r →
    r.session.core = { m.core with runState := r.session.core.runState } ∧
    (m.phase = .fresh → r.session.phase = .missed) ∧ (m.phase ≠ .fresh → r.session.phase = m.phase) ∧
    r.error = none ∧ r.event = none

/-- 60_exceptions.md R134: while `Paused` no number of steps changes anything, and a pause and its end give back the same
state, so that execution resumes at the same `pc`. -/
def Obligations.PausePreserves : Prop :=
  (∀ (s : State) (n : Nat), s.runState = .paused → Host.Core.run Sys2Proof.core n s = .next s) ∧
  (∀ s : State, s.runState = .running →
    (pauseToggle s).runState = .paused ∧ pauseToggle (pauseToggle s) = s)

/-- 60_exceptions.md R135: in `Quit` no step executes, only `Initialize` leaves it, and all state stays. -/
def Obligations.QuitIsTerminal : Prop :=
  ∀ (c : Command) (m : Session) (r : Reply), m.core.runState = .quit → command c m = .next r → c ≠ .init →
    r.session.core.runState = .quit ∧
    (c = .step → r.session = m ∧ r.event = none) ∧
    viewDisplay r.session = viewDisplay m ∧ viewFault r.session = viewFault m

/-- 70_reset_and_hazards.md section 3 (R152, the spec's own decision D12; the phases, and the refusal of a second `LoadRom`
after a failed one, are log entry 6, DESIGN CHOICE and DEDUCED): `LoadRom` has a meaning only once after
`Initialize` and before any step, `Step` only after a successful boot, and the model refuses them otherwise; a successful
`Step` of a booted session is the core's step and gives the step's event. -/
def Obligations.BootLifecycle : Prop :=
  ∀ m : Session,
    (m.phase ≠ .fresh → ∀ bytes, command (.loadRom bytes) m = .refused .lateLoadRom) ∧
    (m.phase ≠ .booted → command .step m = .refused .stepBeforeBoot) ∧
    (m.phase = .booted → ∃ t, step m.core = .next t ∧
      command .step m = .next ⟨⟨t, .booted⟩, none, stepDiag m.core⟩)

/-- 70_reset_and_hazards.md section 3 (R152) and 00_scope.md section 6, by the spec's own decision D12: boot is `Initialize`
followed at once by `LoadRom`, and gives the booted state or `RomTooLarge`; after any other command that replies, `PauseToggle`
and `Quit` included, `LoadRom` has no meaning and is refused. That `PauseToggle` and `Quit` count is log entry 9 (DEDUCED);
that a failed `LoadRom` counts, and the phases, are log entry 6 (DEDUCED, DESIGN CHOICE); that the reply to `LoadRom` carries
no event is log entry 5 (DESIGN CHOICE). -/
def Obligations.LoadRomImmediatelyAfterInitialize : Prop :=
  (∀ (m : Session) (r : Reply) (bytes : List Byte), command .init m = .next r →
    (∀ t, boot bytes = some t → command (.loadRom bytes) r.session = .next ⟨⟨t, .booted⟩, none, none⟩) ∧
    (boot bytes = none →
      command (.loadRom bytes) r.session = .next ⟨⟨State.reset, .failed⟩, some .romTooLarge, none⟩)) ∧
  (∀ (c : Command) (m : Session) (r : Reply) (bytes : List Byte), c ≠ .init → command c m = .next r →
    command (.loadRom bytes) r.session = .refused .lateLoadRom)
end

