-- ==== Sys2Proof/Laws/Decode.lean ====
section
/-! SUPPORT. The masks of the opcode table as fields, and a word as its two bytes. -/

namespace Sys2Proof

/-- The mask 0xF000 keeps the class. -/
theorem and_classMask (w : Word) : w &&& 0xF000#16 = opClass w ++ 0#12 := by
  apply BitVec.eq_of_getLsbD_eq
  intro k hk
  refine Eq.trans ?_ (BitVec.getLsbD_append (i := k) (x := opClass w) (y := 0#12)).symm
  rw [BitVec.getLsbD_and]
  interval_cases k <;> simp [opClass]

/-- The mask 0xF0FF keeps the class and `NN` (30_encoding.md R57). -/
theorem and_sysMask (w : Word) : w &&& 0xF0FF#16 = opClass w ++ 0#4 ++ fieldNN w := by
  apply BitVec.eq_of_getLsbD_eq
  intro k hk
  refine Eq.trans ?_ (BitVec.getLsbD_append (i := k) (x := opClass w ++ 0#4) (y := fieldNN w)).symm
  rw [BitVec.getLsbD_append, BitVec.getLsbD_and]
  interval_cases k <;> simp [opClass, fieldNN]

/-- A word is its high byte and its low byte. -/
theorem wordOfBytes_split (w : Word) : wordOfBytes (w.extractLsb' 8 8) (w.extractLsb' 0 8) = w := by
  apply BitVec.eq_of_toNat_eq
  have := w.isLt
  rw [wordOfBytes, BitVec.toNat_append, Nat.shiftLeft_eq, Nat.mul_comm,
    ← Nat.two_pow_add_eq_or_of_lt (BitVec.isLt _)]
  simp only [BitVec.extractLsb'_toNat, Nat.shiftRight_eq_div_pow]
  omega

end Sys2Proof
end

