-- ==== Sys2Proof/Laws/State.lean ====
section
/-! SUPPORT. One lemma per field per update of State, so that no proof unfolds a record update: what each named operation
writes, and that it leaves every other field alone. -/

namespace Sys2Proof.Machine

variable (s : State)

/-! ### writeByte -/

@[simp] theorem State.writeByte_memory (a : Nat) (b : Byte) : (s.writeByte a b).memory = Memory.writeByte s.memory a b := rfl
@[simp] theorem State.writeByte_v (a : Nat) (b : Byte) : (s.writeByte a b).v = s.v := rfl
@[simp] theorem State.writeByte_i (a : Nat) (b : Byte) : (s.writeByte a b).i = s.i := rfl
@[simp] theorem State.writeByte_pc (a : Nat) (b : Byte) : (s.writeByte a b).pc = s.pc := rfl
@[simp] theorem State.writeByte_stack (a : Nat) (b : Byte) : (s.writeByte a b).stack = s.stack := rfl
@[simp] theorem State.writeByte_depth (a : Nat) (b : Byte) : (s.writeByte a b).depth = s.depth := rfl
@[simp] theorem State.writeByte_delayTimer (a : Nat) (b : Byte) : (s.writeByte a b).delayTimer = s.delayTimer := rfl
@[simp] theorem State.writeByte_soundTimer (a : Nat) (b : Byte) : (s.writeByte a b).soundTimer = s.soundTimer := rfl
@[simp] theorem State.writeByte_display (a : Nat) (b : Byte) : (s.writeByte a b).display = s.display := rfl
@[simp] theorem State.writeByte_keypad (a : Nat) (b : Byte) : (s.writeByte a b).keypad = s.keypad := rfl
@[simp] theorem State.writeByte_runState (a : Nat) (b : Byte) : (s.writeByte a b).runState = s.runState := rfl
@[simp] theorem State.writeByte_fault (a : Nat) (b : Byte) : (s.writeByte a b).fault = s.fault := rfl

/-! ### writeV -/

@[simp] theorem State.writeV_memory (x : Nibble) (b : Byte) : (s.writeV x b).memory = s.memory := rfl
@[simp] theorem State.writeV_v (x : Nibble) (b : Byte) : (s.writeV x b).v = s.v.set x.toNat b x.isLt := rfl
@[simp] theorem State.writeV_i (x : Nibble) (b : Byte) : (s.writeV x b).i = s.i := rfl
@[simp] theorem State.writeV_pc (x : Nibble) (b : Byte) : (s.writeV x b).pc = s.pc := rfl
@[simp] theorem State.writeV_stack (x : Nibble) (b : Byte) : (s.writeV x b).stack = s.stack := rfl
@[simp] theorem State.writeV_depth (x : Nibble) (b : Byte) : (s.writeV x b).depth = s.depth := rfl
@[simp] theorem State.writeV_delayTimer (x : Nibble) (b : Byte) : (s.writeV x b).delayTimer = s.delayTimer := rfl
@[simp] theorem State.writeV_soundTimer (x : Nibble) (b : Byte) : (s.writeV x b).soundTimer = s.soundTimer := rfl
@[simp] theorem State.writeV_display (x : Nibble) (b : Byte) : (s.writeV x b).display = s.display := rfl
@[simp] theorem State.writeV_keypad (x : Nibble) (b : Byte) : (s.writeV x b).keypad = s.keypad := rfl
@[simp] theorem State.writeV_runState (x : Nibble) (b : Byte) : (s.writeV x b).runState = s.runState := rfl
@[simp] theorem State.writeV_fault (x : Nibble) (b : Byte) : (s.writeV x b).fault = s.fault := rfl

/-! ### writeVF -/

@[simp] theorem State.writeVF_memory (b : Byte) : (s.writeVF b).memory = s.memory := rfl
@[simp] theorem State.writeVF_v (b : Byte) : (s.writeVF b).v = s.v.set 15 b (by decide) := rfl
@[simp] theorem State.writeVF_i (b : Byte) : (s.writeVF b).i = s.i := rfl
@[simp] theorem State.writeVF_pc (b : Byte) : (s.writeVF b).pc = s.pc := rfl
@[simp] theorem State.writeVF_stack (b : Byte) : (s.writeVF b).stack = s.stack := rfl
@[simp] theorem State.writeVF_depth (b : Byte) : (s.writeVF b).depth = s.depth := rfl
@[simp] theorem State.writeVF_delayTimer (b : Byte) : (s.writeVF b).delayTimer = s.delayTimer := rfl
@[simp] theorem State.writeVF_soundTimer (b : Byte) : (s.writeVF b).soundTimer = s.soundTimer := rfl
@[simp] theorem State.writeVF_display (b : Byte) : (s.writeVF b).display = s.display := rfl
@[simp] theorem State.writeVF_keypad (b : Byte) : (s.writeVF b).keypad = s.keypad := rfl
@[simp] theorem State.writeVF_runState (b : Byte) : (s.writeVF b).runState = s.runState := rfl
@[simp] theorem State.writeVF_fault (b : Byte) : (s.writeVF b).fault = s.fault := rfl

/-! ### writeI -/

@[simp] theorem State.writeI_memory (a : Word) : (s.writeI a).memory = s.memory := rfl
@[simp] theorem State.writeI_v (a : Word) : (s.writeI a).v = s.v := rfl
@[simp] theorem State.writeI_i (a : Word) : (s.writeI a).i = a := rfl
@[simp] theorem State.writeI_pc (a : Word) : (s.writeI a).pc = s.pc := rfl
@[simp] theorem State.writeI_stack (a : Word) : (s.writeI a).stack = s.stack := rfl
@[simp] theorem State.writeI_depth (a : Word) : (s.writeI a).depth = s.depth := rfl
@[simp] theorem State.writeI_delayTimer (a : Word) : (s.writeI a).delayTimer = s.delayTimer := rfl
@[simp] theorem State.writeI_soundTimer (a : Word) : (s.writeI a).soundTimer = s.soundTimer := rfl
@[simp] theorem State.writeI_display (a : Word) : (s.writeI a).display = s.display := rfl
@[simp] theorem State.writeI_keypad (a : Word) : (s.writeI a).keypad = s.keypad := rfl
@[simp] theorem State.writeI_runState (a : Word) : (s.writeI a).runState = s.runState := rfl
@[simp] theorem State.writeI_fault (a : Word) : (s.writeI a).fault = s.fault := rfl

/-! ### writePc -/

@[simp] theorem State.writePc_memory (a : Word) : (s.writePc a).memory = s.memory := rfl
@[simp] theorem State.writePc_v (a : Word) : (s.writePc a).v = s.v := rfl
@[simp] theorem State.writePc_i (a : Word) : (s.writePc a).i = s.i := rfl
@[simp] theorem State.writePc_pc (a : Word) : (s.writePc a).pc = a := rfl
@[simp] theorem State.writePc_stack (a : Word) : (s.writePc a).stack = s.stack := rfl
@[simp] theorem State.writePc_depth (a : Word) : (s.writePc a).depth = s.depth := rfl
@[simp] theorem State.writePc_delayTimer (a : Word) : (s.writePc a).delayTimer = s.delayTimer := rfl
@[simp] theorem State.writePc_soundTimer (a : Word) : (s.writePc a).soundTimer = s.soundTimer := rfl
@[simp] theorem State.writePc_display (a : Word) : (s.writePc a).display = s.display := rfl
@[simp] theorem State.writePc_keypad (a : Word) : (s.writePc a).keypad = s.keypad := rfl
@[simp] theorem State.writePc_runState (a : Word) : (s.writePc a).runState = s.runState := rfl
@[simp] theorem State.writePc_fault (a : Word) : (s.writePc a).fault = s.fault := rfl

/-! ### advance -/

@[simp] theorem State.advance_memory : s.advance.memory = s.memory := rfl
@[simp] theorem State.advance_v : s.advance.v = s.v := rfl
@[simp] theorem State.advance_i : s.advance.i = s.i := rfl
@[simp] theorem State.advance_pc : s.advance.pc = s.pc + 2#16 := rfl
@[simp] theorem State.advance_stack : s.advance.stack = s.stack := rfl
@[simp] theorem State.advance_depth : s.advance.depth = s.depth := rfl
@[simp] theorem State.advance_delayTimer : s.advance.delayTimer = s.delayTimer := rfl
@[simp] theorem State.advance_soundTimer : s.advance.soundTimer = s.soundTimer := rfl
@[simp] theorem State.advance_display : s.advance.display = s.display := rfl
@[simp] theorem State.advance_keypad : s.advance.keypad = s.keypad := rfl
@[simp] theorem State.advance_runState : s.advance.runState = s.runState := rfl
@[simp] theorem State.advance_fault : s.advance.fault = s.fault := rfl

/-! ### writeDisplay -/

@[simp] theorem State.writeDisplay_memory (d : Display) : (s.writeDisplay d).memory = s.memory := rfl
@[simp] theorem State.writeDisplay_v (d : Display) : (s.writeDisplay d).v = s.v := rfl
@[simp] theorem State.writeDisplay_i (d : Display) : (s.writeDisplay d).i = s.i := rfl
@[simp] theorem State.writeDisplay_pc (d : Display) : (s.writeDisplay d).pc = s.pc := rfl
@[simp] theorem State.writeDisplay_stack (d : Display) : (s.writeDisplay d).stack = s.stack := rfl
@[simp] theorem State.writeDisplay_depth (d : Display) : (s.writeDisplay d).depth = s.depth := rfl
@[simp] theorem State.writeDisplay_delayTimer (d : Display) : (s.writeDisplay d).delayTimer = s.delayTimer := rfl
@[simp] theorem State.writeDisplay_soundTimer (d : Display) : (s.writeDisplay d).soundTimer = s.soundTimer := rfl
@[simp] theorem State.writeDisplay_display (d : Display) : (s.writeDisplay d).display = d := rfl
@[simp] theorem State.writeDisplay_keypad (d : Display) : (s.writeDisplay d).keypad = s.keypad := rfl
@[simp] theorem State.writeDisplay_runState (d : Display) : (s.writeDisplay d).runState = s.runState := rfl
@[simp] theorem State.writeDisplay_fault (d : Display) : (s.writeDisplay d).fault = s.fault := rfl

/-! ### raise -/

@[simp] theorem State.raise_memory (c : FaultCause) : (s.raise c).memory = s.memory := rfl
@[simp] theorem State.raise_v (c : FaultCause) : (s.raise c).v = s.v := rfl
@[simp] theorem State.raise_i (c : FaultCause) : (s.raise c).i = s.i := rfl
@[simp] theorem State.raise_pc (c : FaultCause) : (s.raise c).pc = s.pc := rfl
@[simp] theorem State.raise_stack (c : FaultCause) : (s.raise c).stack = s.stack := rfl
@[simp] theorem State.raise_depth (c : FaultCause) : (s.raise c).depth = s.depth := rfl
@[simp] theorem State.raise_delayTimer (c : FaultCause) : (s.raise c).delayTimer = s.delayTimer := rfl
@[simp] theorem State.raise_soundTimer (c : FaultCause) : (s.raise c).soundTimer = s.soundTimer := rfl
@[simp] theorem State.raise_display (c : FaultCause) : (s.raise c).display = s.display := rfl
@[simp] theorem State.raise_keypad (c : FaultCause) : (s.raise c).keypad = s.keypad := rfl
@[simp] theorem State.raise_runState (c : FaultCause) : (s.raise c).runState = s.runState := rfl
@[simp] theorem State.raise_fault (c : FaultCause) : (s.raise c).fault = some ⟨c, s.pc⟩ := rfl

/-! ### Reads through updates -/

@[simp] theorem State.writeByte_readV (a : Nat) (b : Byte) (y : Nibble) : (s.writeByte a b).readV y = s.readV y := rfl
@[simp] theorem State.writeByte_cell (a : Nat) (b : Byte) (col : Fin 64) (row : Fin 32) : (s.writeByte a b).cell col row = s.cell col row := rfl
@[simp] theorem State.writeV_byteAt (x : Nibble) (b : Byte) (k : Nat) : (s.writeV x b).byteAt k = s.byteAt k := rfl
@[simp] theorem State.writeV_cell (x : Nibble) (b : Byte) (col : Fin 64) (row : Fin 32) : (s.writeV x b).cell col row = s.cell col row := rfl
@[simp] theorem State.writeVF_byteAt (b : Byte) (k : Nat) : (s.writeVF b).byteAt k = s.byteAt k := rfl
@[simp] theorem State.writeVF_cell (b : Byte) (col : Fin 64) (row : Fin 32) : (s.writeVF b).cell col row = s.cell col row := rfl
@[simp] theorem State.writeI_readV (a : Word) (y : Nibble) : (s.writeI a).readV y = s.readV y := rfl
@[simp] theorem State.writeI_byteAt (a : Word) (k : Nat) : (s.writeI a).byteAt k = s.byteAt k := rfl
@[simp] theorem State.writeI_cell (a : Word) (col : Fin 64) (row : Fin 32) : (s.writeI a).cell col row = s.cell col row := rfl
@[simp] theorem State.writePc_readV (a : Word) (y : Nibble) : (s.writePc a).readV y = s.readV y := rfl
@[simp] theorem State.writePc_byteAt (a : Word) (k : Nat) : (s.writePc a).byteAt k = s.byteAt k := rfl
@[simp] theorem State.writePc_cell (a : Word) (col : Fin 64) (row : Fin 32) : (s.writePc a).cell col row = s.cell col row := rfl
@[simp] theorem State.advance_readV (y : Nibble) : s.advance.readV y = s.readV y := rfl
@[simp] theorem State.advance_byteAt (k : Nat) : s.advance.byteAt k = s.byteAt k := rfl
@[simp] theorem State.advance_cell (col : Fin 64) (row : Fin 32) : s.advance.cell col row = s.cell col row := rfl
@[simp] theorem State.writeDisplay_readV (d : Display) (y : Nibble) : (s.writeDisplay d).readV y = s.readV y := rfl
@[simp] theorem State.writeDisplay_byteAt (d : Display) (k : Nat) : (s.writeDisplay d).byteAt k = s.byteAt k := rfl
@[simp] theorem State.raise_readV (c : FaultCause) (y : Nibble) : (s.raise c).readV y = s.readV y := rfl
@[simp] theorem State.raise_byteAt (c : FaultCause) (k : Nat) : (s.raise c).byteAt k = s.byteAt k := rfl
@[simp] theorem State.raise_cell (c : FaultCause) (col : Fin 64) (row : Fin 32) : (s.raise c).cell col row = s.cell col row := rfl

/-- A register reads back what was written to it. -/
@[simp] theorem State.readV_writeV_same (x : Nibble) (b : Byte) : (s.writeV x b).readV x = b := by
  simp [State.readV]

/-- The 16 registers are independent (10_state.md R11). -/
theorem State.readV_writeV_ne {x y : Nibble} (b : Byte) (h : y ≠ x) : (s.writeV x b).readV y = s.readV y := by
  have : x.toNat ≠ y.toNat := fun e => h (BitVec.eq_of_toNat_eq e.symm)
  simp [State.readV, Vector.getElem_set_ne, this]

/-- VF reads back what was written to it. -/
@[simp] theorem State.readV_writeVF_same (b : Byte) : (s.writeVF b).readV 0xF#4 = b :=
  s.readV_writeV_same 0xF#4 b

/-- A write of VF leaves the other registers alone. -/
theorem State.readV_writeVF_ne {y : Nibble} (b : Byte) (h : y ≠ 0xF#4) : (s.writeVF b).readV y = s.readV y :=
  s.readV_writeV_ne b h

/-- Reading a register of a state whose registers are given. -/
theorem State.readV_ext {s t : State} (h : ∀ x : Nibble, t.readV x = s.readV x) : t.v = s.v := by
  apply Vector.ext
  intro k hk
  simpa [State.readV, Nat.mod_eq_of_lt hk] using h (BitVec.ofNat 4 k)

end Sys2Proof.Machine
end

