-- ==== Sys2Proof/Laws/Display.lean ====
section
/-! SUPPORT. The display: the cells of a toggled and of a cleared display, and what one sprite row does. -/

namespace Sys2Proof.Machine

/-- A cell's index is inside the display. -/
theorem cellIndex_lt (col : Fin 64) (row : Fin 32) : cellIndex col row < 2048 := by
  have := col.isLt; have := row.isLt; simp only [cellIndex]; omega

/-- Different cells have different indexes. -/
theorem cellIndex_inj {c c' : Fin 64} {r r' : Fin 32} : cellIndex c r = cellIndex c' r' ↔ c = c' ∧ r = r' := by
  constructor
  · intro h
    have := c.isLt; have := c'.isLt
    simp only [cellIndex] at h
    exact ⟨Fin.ext (by omega), Fin.ext (by omega)⟩
  · rintro ⟨rfl, rfl⟩; rfl

/-- Toggling one cell: it changes by the bit, every other cell keeps its value. -/
theorem Display.cell_xorCell (d : Display) (c c' : Fin 64) (r r' : Fin 32) (on : Bool) :
    Display.cell (Display.xorCell d c r on) c' r' = (Display.cell d c' r' ^^ (on && decide (c' = c ∧ r' = r))) := by
  have hlt := cellIndex_lt c' r'
  simp only [Display.cell, Display.xorCell, BitVec.getLsbD_xor, BitVec.getLsbD_shiftLeft, BitVec.getLsbD_setWidth,
    BitVec.truncate_eq_setWidth, BitVec.getLsbD_ofBool]
  congr 1
  by_cases h : cellIndex c' r' = cellIndex c r
  · have hcr := cellIndex_inj.mp h
    simp [hcr, cellIndex_lt c r]
  · have hcr : ¬ (c' = c ∧ r' = r) := fun e => h (cellIndex_inj.mpr e)
    by_cases hl : cellIndex c' r' < cellIndex c r
    · simp [hl, hcr]
    · have : cellIndex c' r' - cellIndex c r ≠ 0 := by omega
      simp [hcr, this]

/-- Every cell of a cleared display is off. -/
@[simp] theorem Display.cell_clear (c : Fin 64) (r : Fin 32) : Display.cell Display.clear c r = false := by
  simp [Display.cell, Display.clear]

/-- Displays with the same cells are the same. -/
theorem Display.ext_cell {d e : Display} (h : ∀ c r, Display.cell d c r = Display.cell e c r) : d = e := by
  apply BitVec.eq_of_getLsbD_eq
  intro k hk
  have := h ⟨k % 64, Nat.mod_lt _ (by decide)⟩ ⟨k / 64, by omega⟩
  simpa only [Display.cell, cellIndex, Nat.div_add_mod'] using this

/-- One pixel: the cell it lands on changes by the bit, and a collision is noted. -/
theorem drawPixel_cell (c : Canvas) (x : Fin 64) (y : Fin 32) (bit : Bool) (x' : Fin 64) (y' : Fin 32) :
    Display.cell (drawPixel c x y bit).display x' y' =
      (Display.cell c.display x' y' ^^ (bit && decide (x' = x ∧ y' = y))) :=
  Display.cell_xorCell _ _ _ _ _ _

/-- The bits `n - 1` down to 0 of a sprite row whose bit 7 stands at column `x0`: exactly the columns from
`x0 + (8 - n)` up to `x0 + 7`, as far as the display goes, change by their bit, and a collision is one 1 bit over a cell
that was on. -/
theorem drawBits_spec (byte : Byte) (x0 : Fin 64) (y : Fin 32) (n : Nat) (hn : n ≤ 8) (c : Canvas) :
    (∀ x' y', Display.cell (drawBits byte x0 y (List.range n).reverse c).display x' y' =
      (Display.cell c.display x' y' ^^
        (decide (y' = y) && decide (x0.val + (8 - n) ≤ x'.val ∧ x'.val < x0.val + 8) &&
          byte.getLsbD (7 - (x'.val - x0.val))))) ∧
    ((drawBits byte x0 y (List.range n).reverse c).collision = true ↔
      c.collision = true ∨ ∃ x' : Fin 64, x0.val + (8 - n) ≤ x'.val ∧ x'.val < x0.val + 8 ∧
        byte.getLsbD (7 - (x'.val - x0.val)) = true ∧ Display.cell c.display x' y = true) := by
  induction n generalizing c with
  | zero =>
    refine ⟨fun x' y' => ?_, ?_⟩
    · have : ¬ (x0.val + (8 - 0) ≤ x'.val ∧ x'.val < x0.val + 8) := by omega
      simp only [List.range_zero, List.reverse_nil, drawBits, decide_eq_false this, Bool.and_false, Bool.false_and,
        Bool.xor_false]
    · simp only [List.range_zero, List.reverse_nil, drawBits]
      constructor
      · exact Or.inl
      · rintro (h | ⟨x', h1, h2, -⟩)
        · exact h
        · omega
  | succ n ih =>
    rw [List.range_succ, List.reverse_append, List.reverse_singleton, List.singleton_append]
    simp only [drawBits]
    split
    · rename_i hcol
      obtain ⟨ih1, ih2⟩ := ih (by omega) (drawPixel c ⟨x0.val + (7 - n), hcol⟩ y (byte.getLsbD n))
      have hidx : 7 - (x0.val + (7 - n) - x0.val) = n := by omega
      refine ⟨fun x' y' => ?_, ?_⟩
      · rw [ih1, drawPixel_cell]
        by_cases hx : x'.val = x0.val + (7 - n)
        · have hx' : x' = ⟨x0.val + (7 - n), hcol⟩ := Fin.ext hx
          have hno : ¬ (x0.val + (8 - n) ≤ x'.val ∧ x'.val < x0.val + 8) := by omega
          have hyes : x0.val + (8 - (n + 1)) ≤ x'.val ∧ x'.val < x0.val + 8 := by omega
          rw [decide_eq_false hno, decide_eq_true hyes]
          subst hx'
          simp only [hidx, Bool.false_and, Bool.and_false, Bool.xor_false, true_and, Bool.and_true]
          rw [Bool.and_comm]
        · have hne : ¬ (x' = ⟨x0.val + (7 - n), hcol⟩ ∧ y' = y) := fun e => hx (congrArg Fin.val e.1)
          have hiff : (x0.val + (8 - n) ≤ x'.val ∧ x'.val < x0.val + 8) ↔
              (x0.val + (8 - (n + 1)) ≤ x'.val ∧ x'.val < x0.val + 8) := by omega
          simp only [decide_eq_false hne, Bool.and_false, Bool.xor_false, hiff]
      · rw [ih2]
        constructor
        · rintro (h | ⟨x', h1, h2, h3, h4⟩)
          · simp only [drawPixel, collides, Bool.or_eq_true, Bool.and_eq_true] at h
            rcases h with h | ⟨hb, hc⟩
            · exact Or.inl h
            · exact Or.inr ⟨⟨x0.val + (7 - n), hcol⟩, by dsimp only; omega, by dsimp only; omega,
                by dsimp only; rw [hidx]; exact hb, hc⟩
          · have hne : ¬ (x' = ⟨x0.val + (7 - n), hcol⟩ ∧ y = y) := fun e => by
              have := congrArg Fin.val e.1; dsimp only at this; omega
            rw [drawPixel_cell, decide_eq_false hne, Bool.and_false, Bool.xor_false] at h4
            exact Or.inr ⟨x', by omega, h2, h3, h4⟩
        · rintro (h | ⟨x', h1, h2, h3, h4⟩)
          · left; simp only [drawPixel, h, Bool.true_or]
          · by_cases hx : x'.val = x0.val + (7 - n)
            · left
              have hx' : x' = ⟨x0.val + (7 - n), hcol⟩ := Fin.ext hx
              subst hx'
              simp only [hidx] at h3
              simp only [drawPixel, collides, h3, h4, Bool.and_self, Bool.or_true]
            · right
              have hne : ¬ (x' = ⟨x0.val + (7 - n), hcol⟩ ∧ y = y) := fun e => hx (congrArg Fin.val e.1)
              refine ⟨x', by omega, h2, h3, ?_⟩
              rw [drawPixel_cell, decide_eq_false hne, Bool.and_false, Bool.xor_false, h4]
    · rename_i hcol
      refine ⟨fun x' y' => ?_, ?_⟩
      · have := x'.isLt
        have hno : ¬ (x0.val + (8 - (n + 1)) ≤ x'.val ∧ x'.val < x0.val + 8) := by omega
        simp only [decide_eq_false hno, Bool.and_false, Bool.false_and, Bool.xor_false]
      · constructor
        · exact Or.inl
        · rintro (h | ⟨x', h1, -⟩)
          · exact h
          · have := x'.isLt; omega

/-- One sprite row: the cells of its line from column `x0` on, eight of them or as many as the display has, change by
their bit, the most significant bit the leftmost. -/
theorem drawRow_spec (byte : Byte) (x0 : Fin 64) (y : Fin 32) (c : Canvas) :
    (∀ x' y', Display.cell (drawRow byte x0 y c).display x' y' =
      (Display.cell c.display x' y' ^^
        (decide (y' = y) && decide (x0.val ≤ x'.val ∧ x'.val < x0.val + 8) && byte.getLsbD (7 - (x'.val - x0.val))))) ∧
    ((drawRow byte x0 y c).collision = true ↔
      c.collision = true ∨ ∃ x' : Fin 64, x0.val ≤ x'.val ∧ x'.val < x0.val + 8 ∧
        byte.getLsbD (7 - (x'.val - x0.val)) = true ∧ Display.cell c.display x' y = true) :=
  drawBits_spec byte x0 y 8 (Nat.le_refl 8) c

/-- Rows `r` to `r + k - 1` of a sprite, all on the display: the cells of these lines from column `x0` on change by their
bit, and a collision is one 1 bit over a cell that was on. -/
theorem drawRows_spec (bytes : Nat → Byte) (x0 : Fin 64) (y0 : Fin 32) (k r : Nat) (h : y0.val + r + k ≤ 32) (c : Canvas) :
   (∀ x' y', Display.cell (drawRows bytes x0 y0 (List.range' r k) c).display x' y' =
      (Display.cell c.display x' y' ^^
        (decide (y0.val + r ≤ y'.val ∧ y'.val < y0.val + r + k) && decide (x0.val ≤ x'.val ∧ x'.val < x0.val + 8) &&
         (bytes (y'.val - y0.val)).getLsbD (7 - (x'.val - x0.val))))) ∧
    ((drawRows bytes x0 y0 (List.range' r k) c).collision = true ↔
      c.collision = true ∨ ∃ x' y', (y0.val + r ≤ y'.val ∧ y'.val < y0.val + r + k) ∧ (x0.val ≤ x'.val ∧ x'.val < x0.val + 8) ∧
        (bytes (y'.val - y0.val)).getLsbD (7 - (x'.val - x0.val)) = true ∧ Display.cell c.display x' y' = true) := by
  induction k generalizing r c with
  | zero =>
    refine ⟨fun x' y' => ?_, ?_⟩
    · have : ¬ (y0.val + r ≤ y'.val ∧ y'.val < y0.val + r + 0) := by omega
      simp only [List.range'_zero, drawRows, decide_eq_false this, Bool.false_and, Bool.xor_false]
    · simp only [List.range'_zero, drawRows]
      constructor
      · exact Or.inl
      · rintro (h | ⟨_, y', h1, -⟩)
        · exact h
        · omega
  | succ k ih =>
    rw [List.range'_succ]
    simp only [drawRows]
    rw [dif_pos (by omega)]
    obtain ⟨i1, i2⟩ := ih (r+1) (by omega) (drawRow (bytes r) x0 ⟨y0.val + r, by omega⟩ c)
    obtain ⟨r1, r2⟩ := drawRow_spec (bytes r) x0 ⟨y0.val + r, by omega⟩ c
    refine ⟨fun x' y' => ?_, ?_⟩
    · rw [i1, r1]
      by_cases hy : y'.val = y0.val + r
      · have e1 : y' = ⟨y0.val + r, by omega⟩ := Fin.ext hy
        have e2 : ¬ (y0.val + (r+1) ≤ y'.val ∧ y'.val < y0.val + (r+1) + k) := by omega
        have e3 : (y0.val + r ≤ y'.val ∧ y'.val < y0.val + r + (k+1)) := by omega
        have e4 : y'.val - y0.val = r := by omega
        rw [decide_eq_false e2, decide_eq_true e3, e4, decide_eq_true e1]
        simp
      · have e1 : ¬ y' = ⟨y0.val + r, by omega⟩ := fun e => hy (congrArg Fin.val e)
        have e2 : (y0.val + (r+1) ≤ y'.val ∧ y'.val < y0.val + (r+1) + k) ↔ (y0.val + r ≤ y'.val ∧ y'.val < y0.val + r + (k+1)) := by omega
        simp only [e2, decide_eq_false e1, Bool.false_and, Bool.xor_false]
    · rw [i2, r2]
      constructor
      · rintro ((h | ⟨x', h1, h2, h3, h4⟩) | ⟨x', y', h1, h2, h3, h4⟩)
        · exact Or.inl h
        · refine Or.inr ⟨x', ⟨y0.val + r, by omega⟩, by dsimp only; omega, ⟨h1, h2⟩, ?_, h4⟩
          have : y0.val + r - y0.val = r := by omega
          dsimp only; rw [this]; exact h3
        · refine Or.inr ⟨x', y', by omega, h2, h3, ?_⟩
          rw [r1] at h4
          have e1 : ¬ y' = ⟨y0.val + r, by omega⟩ := fun e => by have := congrArg Fin.val e; dsimp only at this; omega
          simpa [e1] using h4
      · rintro (h | ⟨x', y', h1, h2, h3, h4⟩)
        · exact Or.inl (Or.inl h)
        · by_cases hy : y'.val = y0.val + r
          · have e1 : y' = ⟨y0.val + r, by omega⟩ := Fin.ext hy
            refine Or.inl (Or.inr ⟨x', h2.1, h2.2, ?_, by rw [← e1]; exact h4⟩)
            have e4 : y'.val - y0.val = r := by omega
            rwa [e4] at h3
          · refine Or.inr ⟨x', y', by omega, h2, h3, ?_⟩
            have e1 : ¬ y' = ⟨y0.val + r, by omega⟩ := fun e => hy (congrArg Fin.val e)
            rw [r1]; simpa [e1] using h4

end Sys2Proof.Machine
end

