-- ==== Sys2Proof/Laws/Memory.lean ====
section
/-! SUPPORT. Memory: a read after a write, and that every memory operation keeps the canonical form. -/

namespace Sys2Proof.Machine

/-- A canonical list above `lo` lists nothing below it. -/
theorem Memory.byteAt_of_lt {m : Memory} {lo a : Nat} (h : Memory.wfAbove lo m = true) (ha : a < lo) :
    Memory.byteAt m a = Memory.resetByte a := by
  induction m generalizing lo with
  | nil => rfl
  | cons c m ih =>
    obtain ⟨b, u⟩ := c
    simp only [Memory.wfAbove, Bool.and_eq_true, decide_eq_true_eq] at h
    obtain ⟨⟨⟨h1, -⟩, -⟩, h4⟩ := h
    rw [Memory.byteAt, if_neg (by omega), ih h4 (by omega)]

/-- A canonical list above `lo` is one above every lower bound. -/
theorem Memory.wfAbove_mono {m : Memory} {lo lo' : Nat} (h : Memory.wfAbove lo m = true) (hle : lo' ≤ lo) :
    Memory.wfAbove lo' m = true := by
  cases m with
  | nil => rfl
  | cons c m =>
    obtain ⟨b, u⟩ := c
    simp only [Memory.wfAbove, Bool.and_eq_true, decide_eq_true_eq] at h ⊢
    exact ⟨⟨⟨by omega, h.1.1.2⟩, h.1.2⟩, h.2⟩

/-- A write leaves every other place alone. -/
theorem Memory.byteAt_writeByte_ne (m : Memory) {a k : Nat} (v : Byte) (h : k ≠ a) :
    Memory.byteAt (Memory.writeByte m a v) k = Memory.byteAt m k := by
  induction m with
  | nil => by_cases hv : v = Memory.resetByte a <;> simp [Memory.writeByte, hv, Memory.byteAt, h]
  | cons c m ih =>
    obtain ⟨b, u⟩ := c
    simp only [Memory.writeByte]
    split_ifs <;> simp_all [Memory.byteAt]

/-- A read after a write to the same place gives the byte written. -/
theorem Memory.byteAt_writeByte_same {m : Memory} {lo a : Nat} (v : Byte) (h : Memory.wfAbove lo m = true) :
    Memory.byteAt (Memory.writeByte m a v) a = v := by
  induction m generalizing lo with
  | nil => by_cases hv : v = Memory.resetByte a <;> simp [Memory.writeByte, hv, Memory.byteAt]
  | cons c m ih =>
    obtain ⟨b, u⟩ := c
    have h' := h
    simp only [Memory.wfAbove, Bool.and_eq_true, decide_eq_true_eq] at h'
    obtain ⟨-, h4⟩ := h'
    simp only [Memory.writeByte]
    split_ifs with hab hv hlt hv
    · rw [hv]; exact Memory.byteAt_of_lt h4 (by omega)
    · simp [Memory.byteAt]
    · rw [Memory.byteAt, if_neg hab, hv]; exact Memory.byteAt_of_lt h4 (by omega)
    · simp [Memory.byteAt]
    · rw [Memory.byteAt, if_neg hab, ih h4]

/-- A write inside memory keeps the canonical form. -/
theorem Memory.wfAbove_writeByte {m : Memory} {lo a : Nat} (v : Byte) (h : Memory.wfAbove lo m = true)
    (hlo : lo ≤ a) (ha : a < 4096) : Memory.wfAbove lo (Memory.writeByte m a v) = true := by
  induction m generalizing lo with
  | nil => by_cases hv : v = Memory.resetByte a <;> simp [Memory.writeByte, hv, Memory.wfAbove, hlo, ha]
  | cons c m ih =>
    obtain ⟨b, u⟩ := c
    have h' := h
    simp only [Memory.wfAbove, Bool.and_eq_true, decide_eq_true_eq] at h'
    obtain ⟨⟨⟨h1, h2⟩, h3⟩, h4⟩ := h'
    simp only [Memory.writeByte]
    split_ifs with hab hv hlt hv
    · exact Memory.wfAbove_mono h4 (by omega)
    · subst hab; simp [Memory.wfAbove, hlo, ha, hv, h4]
    · exact h
    · simp [Memory.wfAbove, hlo, ha, hv, h2, h3, h4]; omega
    · simp [Memory.wfAbove, h1, h2, h3, ih h4 (by omega)]

/-- A write inside memory keeps the canonical form. -/
theorem Memory.wf_writeByte {m : Memory} {a : Nat} (v : Byte) (h : Memory.wf m = true) (ha : a < 4096) :
    Memory.wf (Memory.writeByte m a v) = true :=
  Memory.wfAbove_writeByte v h (Nat.zero_le a) ha

/-- A write of bytes inside memory keeps the canonical form. -/
theorem Memory.wf_writeBytes {m : Memory} {a : Nat} (vs : List Byte) (h : Memory.wf m = true)
    (ha : a + vs.length ≤ 4096) : Memory.wf (Memory.writeBytes m a vs) = true := by
  induction vs generalizing m a with
  | nil => exact h
  | cons v vs ih =>
    simp only [List.length_cons] at ha
    exact ih (Memory.wf_writeByte v h (by omega)) (by omega)

/-- A write of bytes leaves every place outside them alone. -/
theorem Memory.byteAt_writeBytes_outside (m : Memory) {a k : Nat} (vs : List Byte)
    (h : k < a ∨ a + vs.length ≤ k) : Memory.byteAt (Memory.writeBytes m a vs) k = Memory.byteAt m k := by
  induction vs generalizing m a with
  | nil => rfl
  | cons v vs ih =>
    simp only [List.length_cons] at h
    rw [Memory.writeBytes, ih _ (by omega), Memory.byteAt_writeByte_ne _ _ (by omega)]

/-- After a write of bytes each place reads the byte written to it. -/
theorem Memory.byteAt_writeBytes_inside {m : Memory} {a : Nat} (vs : List Byte) (hwf : Memory.wf m = true)
    (ha : a + vs.length ≤ 4096) (k : Nat) (hk : k < vs.length) :
    Memory.byteAt (Memory.writeBytes m a vs) (a + k) = vs[k] := by
  induction vs generalizing m a k with
  | nil => simp at hk
  | cons v vs ih =>
    simp only [List.length_cons] at ha hk
    have hw := Memory.wf_writeByte v hwf (a := a) (by omega)
    cases k with
    | zero =>
      rw [Memory.writeBytes, Memory.byteAt_writeBytes_outside _ _ (by omega)]
      exact Memory.byteAt_writeByte_same v hwf
    | succ k =>
      have := ih (a := a + 1) hw (by omega) k (by omega)
      rw [Memory.writeBytes, show a + (k + 1) = a + 1 + k by omega, this, List.getElem_cons_succ]

/-- Reset memory is canonical. -/
theorem Memory.wf_reset : Memory.wf State.reset.memory = true := rfl

end Sys2Proof.Machine
end

