-- ==== Sys2Proof/Laws/Ops.lean ====
section
/-! SUPPORT. What each shared operation answers, once: the call stack, the operands, the gate of a step, its fetch. -/

namespace Sys2Proof.Machine

/-- The core steps when it is `Running` and no fault is latched (40_fetch_decode_step.md R70). -/
theorem State.canStep_iff (s : State) : s.canStep = true ↔ s.runState = .running ∧ s.fault = none := by
  simp [State.canStep]

/-- The fetch leaves memory above 4094 (40_fetch_decode_step.md R71). -/
theorem State.fetchOutOfBounds_iff (s : State) : s.fetchOutOfBounds = true ↔ 4094 < s.pc.toNat := by
  simp [State.fetchOutOfBounds]

/-- A push onto a stack that is not full writes the slot at `depth` and counts it. -/
theorem State.push_of_lt (s : State) (a : Word) (h : s.depth.val < 16) :
    s.push a = some { s with
      stack := s.stack.set s.depth.val a h
      depth := ⟨s.depth.val + 1, Nat.succ_lt_succ h⟩ } :=
  dif_pos h

/-- A push onto a full stack gives nothing. -/
theorem State.push_full (s : State) (a : Word) (h : s.depth.val = 16) : s.push a = none :=
  dif_neg (by omega)

/-- A pop of a stack that is not empty gives the entry below `depth` and counts it off; no slot is written. -/
theorem State.pop_of_pos (s : State) (h : 0 < s.depth.val) :
    s.pop = some (s.stack[s.depth.val - 1]'(by have := s.depth.isLt; omega),
      { s with depth := ⟨s.depth.val - 1, by have := s.depth.isLt; omega⟩ }) :=
  dif_neg (by omega)

/-- A pop of an empty stack gives nothing. -/
theorem State.pop_empty (s : State) (h : s.depth.val = 0) : s.pop = none := dif_pos h

/-- The advance of `pc` does not touch the stack. -/
theorem State.advance_pop (s : State) (h : 0 < s.depth.val) :
    s.advance.pop = some (s.stack[s.depth.val - 1]'(by have := s.depth.isLt; omega),
      { s with pc := s.pc + 2#16, depth := ⟨s.depth.val - 1, by have := s.depth.isLt; omega⟩ }) :=
  State.pop_of_pos s.advance h

/-- The address operand has the value of its field, and so is at most 0xFFF. -/
@[simp] theorem addrOperand_toNat (nnn : Addr12) : (addrOperand nnn).toNat = nnn.toNat := by
  have := nnn.isLt
  simp [addrOperand, BitVec.toNat_setWidth]
  omega

/-- The address operand is the field's value as a 16-bit number. -/
theorem addrOperand_eq (nnn : Addr12) : addrOperand nnn = BitVec.ofNat 16 nnn.toNat := by
  apply BitVec.eq_of_toNat_eq
  have := nnn.isLt
  simp only [addrOperand_toNat, BitVec.toNat_ofNat]
  omega

/-- A sprite leaves memory when it has a row and its last row lies above 0xFFF (43_memory_addressing.md R96). -/
theorem State.spriteOutOfBounds_iff (s : State) (rows : Nat) :
    s.spriteOutOfBounds rows = true ↔ 1 ≤ rows ∧ 0xFFF < s.i.toNat + rows - 1 := by
  simp [State.spriteOutOfBounds]

/-- Every row of a sprite that passed the check is a byte of memory. -/
theorem State.sprite_row_in_memory (s : State) (rows r : Nat) (h : s.spriteOutOfBounds rows = false) (hr : r < rows) :
    s.i.toNat + r ≤ 0xFFF := by
  have := mt (State.spriteOutOfBounds_iff s rows).mpr (by simp [h])
  omega

/-- The rows of a sprite stay on the display. -/
theorem spriteRows_le (y0 : Fin 32) (n : Nibble) : y0.val + spriteRows y0 n ≤ 32 := by
  have := y0.isLt
  simp only [spriteRows]
  omega

/-- The word of two bytes as a number, the first the more significant (20_memory.md R34). -/
theorem wordOfBytes_toNat (hi lo : Byte) : (wordOfBytes hi lo).toNat = hi.toNat * 256 + lo.toNat := by
  have := lo.isLt
  rw [wordOfBytes, BitVec.toNat_append, Nat.shiftLeft_eq, Nat.mul_comm,
    ← Nat.two_pow_add_eq_or_of_lt this]

/-- The bytes the fetch reads hold the word it decodes. -/
theorem State.decode_fetchBytes (s : State) : decode s.fetchBytes = .ok (decodeWord s.fetchWord, []) := rfl

/-- A step of a core that is not `Running`, or that has a fault latched, does nothing. -/
theorem step_gated (s : State) (h : s.canStep = false) : step s = .next s := by
  simp [step, h]

/-- A step of a core that may step faults where it cannot fetch. -/
theorem step_outOfBounds (s : State) (h : s.canStep = true) (hp : s.fetchOutOfBounds = true) :
    step s = .next (s.raise .programCounterOutOfBounds) := by
  simp [step, h, hp]

/-- A step of a core that may step and fetch executes the decoded word. -/
theorem step_exec (s : State) (h : s.canStep = true) (hp : s.fetchOutOfBounds = false) :
    step s = exec (decodeWord s.fetchWord) s := by
  simp [step, h, hp]

/-- Everything a step can do. -/
theorem step_cases (s : State) :
    (s.canStep = false ∧ step s = .next s) ∨
    (s.canStep = true ∧ s.fetchOutOfBounds = true ∧ step s = .next (s.raise .programCounterOutOfBounds)) ∨
    (s.canStep = true ∧ s.fetchOutOfBounds = false ∧ step s = exec (decodeWord s.fetchWord) s) := by
  cases h : s.canStep
  · exact Or.inl ⟨rfl, step_gated s h⟩
  · cases hp : s.fetchOutOfBounds
    · exact Or.inr (Or.inr ⟨rfl, rfl, step_exec s h hp⟩)
    · exact Or.inr (Or.inl ⟨rfl, rfl, step_outOfBounds s h hp⟩)

/-! ## The boot lifecycle -/

/-- After a `PauseToggle` or `Quit` the moment for `LoadRom` is past. -/
@[simp] theorem passLoadMoment_ne_fresh (p : BootPhase) : passLoadMoment p ≠ .fresh := by cases p <;> decide

/-- A `PauseToggle` or `Quit` neither boots a core nor ends a boot that succeeded. -/
@[simp] theorem passLoadMoment_eq_booted (p : BootPhase) : passLoadMoment p = .booted ↔ p = .booted := by cases p <;> decide

/-- Outside the fresh phase a `PauseToggle` or `Quit` leaves the boot where it is. -/
theorem passLoadMoment_of_ne_fresh {p : BootPhase} (h : p ≠ .fresh) : passLoadMoment p = p := by
  cases p with
  | fresh => exact absurd rfl h
  | booted => rfl
  | failed => rfl
  | missed => rfl

end Sys2Proof.Machine
end

