-- ==== Sys2Proof/Laws/PerInstr.lean ====
section
/-! SUPPORT. The family EncodedFields: for each instruction, the fields of 30_encoding.md R51 cut from its encoding are the
instruction's class and operands, so no bit of an operand is dropped or moved by the encoder. -/

namespace Sys2Proof.Laws.EncodedFields

/-- The fields of the word `encode` gives the instruction. -/
def Statement : Instr → Prop
  | .cls => opClass (encode .cls) = 0x0#4 ∧ fieldX (encode .cls) = 0x0#4 ∧ fieldNN (encode .cls) = 0xE0#8
  | .ret => opClass (encode .ret) = 0x0#4 ∧ fieldX (encode .ret) = 0x0#4 ∧ fieldNN (encode .ret) = 0xEE#8
  | .jp nnn => opClass (encode (.jp nnn)) = 0x1#4 ∧ fieldNNN (encode (.jp nnn)) = nnn
  | .call nnn => opClass (encode (.call nnn)) = 0x2#4 ∧ fieldNNN (encode (.call nnn)) = nnn
  | .ldVx x nn => opClass (encode (.ldVx x nn)) = 0x6#4 ∧ fieldX (encode (.ldVx x nn)) = x ∧
      fieldNN (encode (.ldVx x nn)) = nn
  | .addVx x nn => opClass (encode (.addVx x nn)) = 0x7#4 ∧ fieldX (encode (.addVx x nn)) = x ∧
      fieldNN (encode (.addVx x nn)) = nn
  | .ldI nnn => opClass (encode (.ldI nnn)) = 0xA#4 ∧ fieldNNN (encode (.ldI nnn)) = nnn
  | .drw x y n => opClass (encode (.drw x y n)) = 0xD#4 ∧ fieldX (encode (.drw x y n)) = x ∧
      fieldY (encode (.drw x y n)) = y ∧ fieldN (encode (.drw x y n)) = n
  | .unimpl w => encode (.unimpl w) = w

/-- A concatenation as a number, its first part the more significant. -/
theorem toNat_append_add {m n : Nat} (a : BitVec m) (b : BitVec n) : (a ++ b).toNat = a.toNat * 2 ^ n + b.toNat := by
  rw [BitVec.toNat_append, Nat.shiftLeft_eq, Nat.mul_comm, ← Nat.two_pow_add_eq_or_of_lt b.isLt]

/-- A bit field as a number. -/
theorem toNat_field {w : Nat} (lo len : Nat) (x : BitVec w) :
    (x.extractLsb' lo len).toNat = x.toNat / 2 ^ lo % 2 ^ len := by
  rw [BitVec.extractLsb'_toNat, Nat.shiftRight_eq_div_pow]

/-- The fields of a word built from a class and a 12-bit field. -/
theorem fields_addr (c : Nibble) (nnn : Addr12) : opClass (c ++ nnn) = c ∧ fieldNNN (c ++ nnn) = nnn := by
  have hc := c.isLt; have hn := nnn.isLt
  constructor <;> apply BitVec.eq_of_toNat_eq <;>
    simp only [opClass, fieldNNN, toNat_field, toNat_append_add] <;> omega

/-- The fields of a word built from a class, a register index and a byte. -/
theorem fields_xnn (c x : Nibble) (nn : Byte) :
    opClass (c ++ x ++ nn) = c ∧ fieldX (c ++ x ++ nn) = x ∧ fieldNN (c ++ x ++ nn) = nn := by
  have hc := c.isLt; have hx := x.isLt; have hn := nn.isLt
  refine ⟨?_, ?_, ?_⟩ <;> apply BitVec.eq_of_toNat_eq <;>
    simp only [opClass, fieldX, fieldNN, toNat_field, toNat_append_add] <;> omega

/-- The fields of a word built from a class, two register indexes and a height. -/
theorem fields_xyn (c x y n : Nibble) : opClass (c ++ x ++ y ++ n) = c ∧ fieldX (c ++ x ++ y ++ n) = x ∧
    fieldY (c ++ x ++ y ++ n) = y ∧ fieldN (c ++ x ++ y ++ n) = n := by
  have hc := c.isLt; have hx := x.isLt; have hy := y.isLt; have hn := n.isLt
  refine ⟨?_, ?_, ?_, ?_⟩ <;> apply BitVec.eq_of_toNat_eq <;>
    simp only [opClass, fieldX, fieldY, fieldN, toNat_field, toNat_append_add] <;> omega

theorem cls : Statement .cls := ⟨rfl, rfl, rfl⟩

theorem ret : Statement .ret := ⟨rfl, rfl, rfl⟩

theorem jp (nnn : Addr12) : Statement (.jp nnn) := fields_addr _ nnn

theorem call (nnn : Addr12) : Statement (.call nnn) := fields_addr _ nnn

theorem ldVx (x : Nibble) (nn : Byte) : Statement (.ldVx x nn) := fields_xnn _ x nn

theorem addVx (x : Nibble) (nn : Byte) : Statement (.addVx x nn) := fields_xnn _ x nn

theorem ldI (nnn : Addr12) : Statement (.ldI nnn) := fields_addr _ nnn

theorem drw (x y n : Nibble) : Statement (.drw x y n) := fields_xyn _ x y n

theorem unimpl (w : Word) : Statement (.unimpl w) := rfl

end Sys2Proof.Laws.EncodedFields
end

