-- ==== Sys2Proof/Tests/Slice0.lean ====
section
/-! SUPPORT. Tests, with their expected results from the spec's test vectors (95_test_vectors.md, cited by id) or written
out from its encodings, and for each statement with hypotheses a witness that meets them. -/

namespace Sys2Proof.Machine

/-- What a function reads in the next state, if there is one. -/
def Tests.after {α : Type} (o : Host.Outcome State Fault Refusal) (f : State → α) : Option α :=
  match o with
  | .next t => some (f t)
  | .fault _ => none
  | .refused _ => none

/-- The reset state with `I`, three bytes of sprite data at 0x300, and V0 to V3 and VF set. -/
def Tests.sprite (b0 b1 : Byte) (v0 v1 vf : Byte) : State :=
  { State.reset with
    memory := [(0x300, b0), (0x301, b1)]
    i := 0x300#16
    v := ((State.reset.v.set 0 v0).set 1 v1).set 15 vf }

/-! ## Well-formedness -/

/-- `unimpl` with a word of one of the eight instructions is no instruction; the one check refuses it. -/
theorem test_illformed_unimpl_cls : (Instr.unimpl 0x00E0#16).wellFormed = false := by decide

theorem test_illformed_unimpl_jp : (Instr.unimpl 0x1234#16).wellFormed = false := by decide

theorem test_wellformed_unimpl : (Instr.unimpl 0x00EF#16).wellFormed = true ∧ (Instr.unimpl 0xFFFF#16).wellFormed = true := by
  decide

/-! ## Decoding: words written out bit by bit from 30_encoding.md R51, R52, R55 -/

/-- `0000 xxxx 1110 0000`, canonical and with `X` = 1 (V-DEC-4). -/
theorem test_decode_cls : decodeWord 0b0000000011100000#16 = .cls ∧ decodeWord 0b0000000111100000#16 = .cls := by decide

/-- `0000 xxxx 1110 1110`, canonical and with `X` = 0xF (V-DEC-5). -/
theorem test_decode_ret : decodeWord 0b0000000011101110#16 = .ret ∧ decodeWord 0b0000111111101110#16 = .ret := by decide

/-- `0001 nnnn nnnn nnnn` with NNN = 0x234 (V-FETCH-1). -/
theorem test_decode_jp : decodeWord 0b0001001000110100#16 = .jp 0x234#12 := by decide

/-- `0010 nnnn nnnn nnnn` with NNN = 0x206 (V-CALL-1). -/
theorem test_decode_call : decodeWord 0b0010001000000110#16 = .call 0x206#12 := by decide

/-- `0110 xxxx kkkk kkkk` with X = 1, NN = 0x0A (S10). -/
theorem test_decode_ldVx : decodeWord 0b0110000100001010#16 = .ldVx 0x1#4 0x0A#8 := by decide

/-- `0111 xxxx kkkk kkkk` with X = 3, NN = 0x02 (V-ADD-1). -/
theorem test_decode_addVx : decodeWord 0b0111001100000010#16 = .addVx 0x3#4 0x02#8 := by decide

/-- `1010 nnnn nnnn nnnn` with NNN = 0xBCD (V-DEC-2). -/
theorem test_decode_ldI : decodeWord 0b1010101111001101#16 = .ldI 0xBCD#12 := by decide

/-- `1101 xxxx yyyy hhhh` with X = 0, Y = 1, N = 5 (V-DEC-1). -/
theorem test_decode_drw : decodeWord 0b1101000000010101#16 = .drw 0x0#4 0x1#4 0x5#4 := by decide

/-- Class 0 with `NN` one off, zero memory, and an opcode of full CHIP-8 (V-DEC-6, V-UN-1, V-UN-2). -/
theorem test_decode_unimpl : decodeWord 0b0000000011100001#16 = .unimpl 0x00E1#16 ∧
    decodeWord 0#16 = .unimpl 0x0000#16 ∧ decodeWord 0b1000000100100100#16 = .unimpl 0x8124#16 := by decide

/-- The encoder's words for the same instructions. -/
theorem test_encode : encode .cls = 0x00E0#16 ∧ encode .ret = 0x00EE#16 ∧ encode (.jp 0x234#12) = 0x1234#16 ∧
    encode (.call 0x206#12) = 0x2206#16 ∧ encode (.ldVx 0x1#4 0x0A#8) = 0x610A#16 ∧
    encode (.addVx 0x3#4 0x02#8) = 0x7302#16 ∧ encode (.ldI 0xBCD#12) = 0xABCD#16 ∧
    encode (.drw 0x0#4 0x1#4 0x5#4) = 0xD015#16 ∧ encode (.unimpl 0x8124#16) = 0x8124#16 := by decide

/-- One byte is too short to hold an instruction. -/
theorem test_decode_truncated : decode [0x12#8] = .error .truncated := by rfl

/-- The table's bits laid out as the hardware stores them. -/
theorem test_decodeTableWord : decodeTableWord 16 0xD015 = some (.drw 0x0#4 0x1#4 0x5#4) := by rfl

/-! ## Instructions -/

/-- V-CLS-2: all cells on, then all off; VF is not written. -/
theorem test_cls : Tests.after (exec .cls { State.reset with display := 0#2048 - 1#2048, v := State.reset.v.set 15 1#8 })
    (fun t => (t.cell 0 0, t.cell 63 31, t.readV 0xF#4, t.pc)) = some (false, false, 1#8, 0x202#16) := by decide +kernel

/-- V-RET-2: `RET` at depth 16. -/
theorem test_ret : Tests.after (exec .ret { State.reset with depth := 16, stack := State.reset.stack.set 15 0xABC#16 })
    (fun t => (t.pc, t.depth, t.fault)) = some (0xABC#16, 15, none) := by decide

/-- V-RET-1: `RET` at depth 0 faults, precisely. -/
theorem test_ret_underflow : Tests.after (exec .ret State.reset) (fun t => (t.pc, t.depth, t.fault)) =
    some (0x200#16, 0, some ⟨.callStackUnderflow, 0x200#16⟩) := by decide

/-- S4: an odd target from 0x3FE. -/
theorem test_jp : Tests.after (exec (.jp 0x201#12) { State.reset with pc := 0x3FE#16 }) (fun t => (t.pc, t.fault)) =
    some (0x201#16, none) := by decide

/-- V-CALL-4: the pushed value can be 4096. -/
theorem test_call : Tests.after (exec (.call 0x300#12) { State.reset with pc := 0xFFE#16 })
    (fun t => (t.pc, t.depth, t.stack[0])) = some (0x300#16, 1, 0x1000#16) := by decide

/-- V-CALL-3: `CALL` at depth 16 faults, precisely. -/
theorem test_call_overflow : Tests.after (exec (.call 0x500#12) { State.reset with pc := 0x400#16, depth := 16 })
    (fun t => (t.pc, t.depth, t.stack[15], t.fault)) =
    some (0x400#16, 16, 0#16, some ⟨.callStackOverflow, 0x400#16⟩) := by decide

/-- V-LD-2: VF as a plain destination. -/
theorem test_ldVx : Tests.after (exec (.ldVx 0xF#4 0xAB#8) State.reset) (fun t => (t.readV 0xF#4, t.readV 0x0#4, t.pc)) =
    some (0xAB#8, 0#8, 0x202#16) := by decide

/-- V-ADD-1: the sum wraps and VF is unchanged. -/
theorem test_addVx_wraps : Tests.after (exec (.addVx 0x3#4 0x02#8) { State.reset with v := State.reset.v.set 3 0xFF#8 })
    (fun t => (t.readV 0x3#4, t.readV 0xF#4)) = some (0x01#8, 0#8) := by decide

/-- V-ADD-6: an ordinary add on VF. -/
theorem test_addVx_vf : Tests.after (exec (.addVx 0xF#4 0xFF#8) { State.reset with v := State.reset.v.set 15 0x07#8 })
    (fun t => t.readV 0xF#4) = some 0x06#8 := by decide

/-- V-LDI-1. -/
theorem test_ldI : Tests.after (exec (.ldI 0xFFF#12) State.reset) (fun t => (t.i, t.pc)) = some (0xFFF#16, 0x202#16) := by
  decide

/-- V-DRW-7: the column comes from the old VF, which then takes the collision flag; and V-DRW-3: clipping at both edges. -/
theorem test_drw : Tests.after (exec (.drw 0xF#4 0x0#4 0x1#4) (Tests.sprite 0x80#8 0#8 2#8 0#8 10#8))
      (fun t => (t.cell 10 2, t.cell 0 2, t.readV 0xF#4, t.i)) = some (true, false, 0#8, 0x300#16) ∧
    Tests.after (exec (.drw 0x0#4 0x1#4 0x2#4) (Tests.sprite 0xFF#8 0xFF#8 255#8 255#8 0#8)) (fun t => t.display) =
      some (1#2048 <<< 2047) := by decide +kernel

/-- S8: a collision turns the cell off and sets VF; and V-EA-2: a sprite that leaves memory faults before VF is written. -/
theorem test_drw_collides_and_faults :
    Tests.after (exec (.drw 0x0#4 0x1#4 0x1#4) { Tests.sprite 0xFF#8 0#8 0#8 3#8 0#8 with display := 1#2048 <<< 192 })
      (fun t => (t.display, t.readV 0xF#4)) = some (0xFE#2048 <<< 192, 1#8) ∧
    Tests.after (exec (.drw 0x0#4 0x1#4 0x2#4) { Tests.sprite 0#8 0#8 0#8 0#8 1#8 with i := 0xFFF#16 })
      (fun t => (t.display, t.readV 0xF#4, t.pc, t.fault)) =
      some (0#2048, 1#8, 0x200#16, some ⟨.spriteAddressOutOfBounds, 0x200#16⟩) := by decide +kernel

/-- V-UN-2: an opcode of full CHIP-8 does nothing here but advance `pc`, and is reported. -/
theorem test_unimpl : Tests.after (exec (.unimpl 0x8124#16) { State.reset with v := State.reset.v.set 1 0xFF#8 })
      (fun t => (t.pc, t.readV 0x1#4, t.fault)) = some (0x202#16, 0xFF#8, none) ∧
    diagOf (.unimpl 0x8124#16) State.reset = some ⟨0x200#16, 0x8124#16⟩ := by decide

/-! ## The step -/

/-- V-FETCH-2 and V-FETCH-3: the last legal fetch, then the fault. -/
theorem test_step_end_of_memory :
    Tests.after (step { State.reset with pc := 0xFFE#16, memory := [(0xFFE, 0x6A#8), (0xFFF, 0xFF#8)] })
      (fun t => (t.pc, t.readV 0xA#4, t.fault)) = some (0x1000#16, 0xFF#8, none) ∧
    Tests.after (step { State.reset with pc := 0x1000#16 }) (fun t => (t.pc, t.fault)) =
      some (0x1000#16, some ⟨.programCounterOutOfBounds, 0x1000#16⟩) := by decide

/-- V-FETCH-5: an odd `pc` fetches there. -/
theorem test_step_odd : Tests.after
    (step { State.reset with pc := 0x201#16, memory := [(0x201, 0x6A#8), (0x202, 0x55#8)] })
    (fun t => (t.pc, t.readV 0xA#4)) = some (0x203#16, 0x55#8) := by decide

/-- V-FETCH-6, V-FLT-1: a paused and a faulted core do not step. -/
theorem test_step_gated : Tests.after (step { State.reset with runState := .paused }) (fun t => t.pc) = some 0x200#16 ∧
    Tests.after (step { State.reset with fault := some ⟨.callStackUnderflow, 0x200#16⟩ }) (fun t => (t.pc, t.fault)) =
      some (0x200#16, some ⟨.callStackUnderflow, 0x200#16⟩) := by decide

/-- A placed instruction runs as the next step, from reset and from a stopped core. -/
theorem test_placed : Tests.after (step (State.reset.withFetchWord 16 0x6A55)) (fun t => (t.pc, t.readV 0xA#4)) =
      some (0x202#16, 0x55#8) ∧
    Tests.after (step (State.withFetchWord { State.reset with pc := 0x1000#16, runState := .quit } 16 0x1ABC))
      (fun t => t.pc) = some 0xABC#16 := by decide

/-- S1, V-BOOT-4: an odd-length ROM; the byte after it reads 0. -/
theorem test_boot : (boot [0x12#8]).map (fun s => (s.byteAt 0x200, s.byteAt 0x201, s.fetchWord)) =
    some (0x12#8, 0#8, 0x1200#16) := by decide

/-! ## Witnesses: for each statement with hypotheses, a state and operands that meet them all -/

theorem test_witness_wellFormed : (Instr.drw 0xF#4 0xF#4 0xF#4).wellFormed = true ∧
    (Instr.unimpl 0x0FE1#16).wellFormed = true := by decide

theorem test_witness_MemoryIsItsBytes : Memory.wf [(0x200, 1#8), (0xFFF, 2#8)] = true := by decide

/-- For `StepRunsDecoded`: reset memory at 0x200 holds 0x0000. -/
theorem test_witness_StepRunsDecoded : State.reset.runState = .running ∧ State.reset.fault = none ∧
    State.reset.pc.toNat ≤ 4094 ∧ decode [State.reset.byteAt 0x200, State.reset.byteAt 0x201] = .ok (.unimpl 0#16, []) :=
  ⟨rfl, rfl, by decide, rfl⟩

theorem test_witness_StepGated : ({ State.reset with runState := .quit } : State).runState ≠ .running ∧
    ({ State.reset with fault := some ⟨.callStackOverflow, 0#16⟩ } : State).fault ≠ none := by decide

/-- For `FetchBound`, at the boundary: 4094 under one clause, 4095 under the other. -/
theorem test_witness_FetchBound : ({ State.reset with pc := 0xFFE#16 } : State).pc.toNat ≤ 4094 ∧
    4094 < ({ State.reset with pc := 0xFFF#16 } : State).pc.toNat := by decide

/-- For `AdvanceOfPc` and the statements about a next state: steps that answer one, without a fault. -/
theorem test_witness_AdvanceOfPc : ∀ w ∈ [0x00E0, 0x1234, 0x2345, 0x6123, 0x7123, 0xA123, 0xD010, 0xFFFF],
    Tests.after (step (State.reset.withFetchWord 16 w)) (fun t => t.fault) = some none := by decide +kernel

/-- For `AdvanceOfPc` with `RET`: depth 16. -/
theorem test_witness_AdvanceOfPc_ret :
    Tests.after (step (State.withFetchWord { State.reset with depth := 16 } 16 0x00EE)) (fun t => t.fault) =
      some none := by decide

theorem test_witness_PlacedWordRuns : Memory.wf State.reset.memory = true := by decide

/-- For `CallResult` and `CallRetRoundTrip`: the last depth that can be pushed to, and the full stack. -/
theorem test_witness_CallResult : ({ State.reset with depth := 15 } : State).depth.val < 16 ∧
    ({ State.reset with depth := 16 } : State).depth.val = 16 := by decide

/-- For `CallRetRoundTrip`: the state the `CALL` leaves has its own depth and top entry. -/
theorem test_witness_CallRetRoundTrip :
    ∃ t u : State, exec (.call 0x300#12) { State.reset with depth := 15 } = .next t ∧ u.depth = t.depth ∧
      u.stack[15] = t.stack[15] :=
  ⟨_, _, rfl, rfl, rfl⟩

/-- For `RetResult`: depths 1 and 16, and the empty stack. -/
theorem test_witness_RetResult : 0 < ({ State.reset with depth := 1 } : State).depth.val ∧
    ({ State.reset with depth := 16 } : State).depth.val - 1 < 16 ∧
    ({ State.reset with depth := 16 } : State).depth.val - 1 < 17 ∧ State.reset.depth.val = 0 := by decide

/-- For `DrwFaults`, V-EA-4: fifteen rows from 0xFF2. -/
theorem test_witness_DrwFaults :
    1 ≤ min (0xF#4).toNat (32 - (State.reset.readV 0#4).toNat % 32) ∧
    0xFFF < (0xFF2#16).toNat + min (0xF#4).toNat (32 - (State.reset.readV 0#4).toNat % 32) - 1 := by decide

/-- For `DrwClosedForm`, V-EA-5 and V-DRW-2: fifteen rows from 0xFF1, and no row from anywhere. -/
theorem test_witness_DrwClosedForm :
    ¬ (1 ≤ min (0xF#4).toNat (32 - 0) ∧ 0xFFF < (0xFF1#16).toNat + min (0xF#4).toNat (32 - 0) - 1) ∧
    ¬ (1 ≤ min (0x0#4).toNat (32 - 0) ∧ 0xFFF < (0xFFFF#16).toNat + min (0x0#4).toNat (32 - 0) - 1) := by decide

/-- For `DrwClosedForm`: a draw with a collision and one without (S8), so both of its cases of VF occur. -/
theorem test_witness_DrwClosedForm_vf :
    Tests.after (exec (.drw 0#4 1#4 1#4) (Tests.sprite 0x80#8 0#8 0#8 0#8 7#8)) (fun t => t.readV 0xF#4) = some 0#8 ∧
    Tests.after (exec (.drw 0#4 1#4 1#4) { Tests.sprite 0x80#8 0#8 0#8 0#8 7#8 with display := 1#2048 })
      (fun t => t.readV 0xF#4) = some 1#8 := by decide +kernel

/-- For `DoubleDrawRestores`: the sprite in memory and the same place for both draws; with VF as a coordinate too. -/
theorem test_witness_DoubleDrawRestores :
    Tests.after (exec (.drw 0#4 0xF#4 1#4) (Tests.sprite 0x80#8 0#8 9#8 0#8 0#8))
      (fun t => ((t.readV 0#4).toNat % 64, (t.readV 0xF#4).toNat % 32)) = some (9, 0) ∧
    ¬ (1 ≤ min (1#4).toNat (32 - 0) ∧ 0xFFF < (0x300#16).toNat + min (1#4).toNat (32 - 0) - 1) := by decide +kernel

/-- For `DisplayWriters`: a step that changes a cell, by `CLS` and by `DRW`. -/
theorem test_witness_DisplayWriters :
    Tests.after (step (State.withFetchWord { State.reset with display := 1#2048 } 16 0x00E0)) (fun t => t.cell 0 0) =
      some false ∧
    Tests.after (step (State.withFetchWord (Tests.sprite 0x80#8 0#8 0#8 0#8 0#8) 16 0xD011)) (fun t => t.cell 0 0) =
      some true := by decide +kernel

/-- For `RegisterWriters`: each way a register changes. -/
theorem test_witness_RegisterWriters :
    Tests.after (exec (.ldVx 2#4 1#8) State.reset) (fun t => decide (t.readV 2#4 ≠ State.reset.readV 2#4)) = some true ∧
    Tests.after (exec (.addVx 2#4 1#8) State.reset) (fun t => decide (t.readV 2#4 ≠ State.reset.readV 2#4)) = some true ∧
    Tests.after (exec (.drw 0#4 0#4 0#4) { State.reset with v := State.reset.v.set 15 1#8 }) (fun t => t.readV 0xF#4) =
      some 0#8 := by decide +kernel

/-- For `OtherWriters`: each piece of state changes by an instruction. -/
theorem test_witness_OtherWriters :
    Tests.after (exec (.ldI 1#12) State.reset) (fun t => decide (t.i ≠ State.reset.i)) = some true ∧
    Tests.after (exec (.call 0#12) State.reset) (fun t => decide (t.stack ≠ State.reset.stack)) = some true ∧
    Tests.after (exec (.call 0#12) State.reset) (fun t => decide (t.depth ≠ State.reset.depth)) = some true ∧
    Tests.after (exec .cls { State.reset with display := 1#2048 }) (fun t => decide (t.display ≠ 1#2048)) = some true ∧
    Tests.after (exec .ret State.reset) (fun t => decide (t.fault ≠ State.reset.fault)) = some true := by decide +kernel

/-- For `FaultsArePrecise` and `FaultCauses`: each cause is latched by some step. -/
theorem test_witness_FaultCauses :
    Tests.after (step { State.reset with pc := 0xFFF#16 }) (fun t => t.fault) =
      some (some ⟨.programCounterOutOfBounds, 0xFFF#16⟩) ∧
    Tests.after (step (State.withFetchWord { State.reset with depth := 16 } 16 0x2200)) (fun t => t.fault) =
      some (some ⟨.callStackOverflow, 0x200#16⟩) ∧
    Tests.after (step (State.reset.withFetchWord 16 0x00EE)) (fun t => t.fault) =
      some (some ⟨.callStackUnderflow, 0x200#16⟩) ∧
    Tests.after (step (State.withFetchWord { State.reset with i := 0xFFF#16 } 16 0xD002)) (fun t => t.fault) =
      some (some ⟨.spriteAddressOutOfBounds, 0x200#16⟩) := by decide +kernel

/-- For `WellBehavedStepIsSafe`: a `CALL` at depth 15, a `RET` at depth 1 and a `DRW` whose last row is 0xFFF, each the
next instruction of a core without a fault. -/
theorem test_witness_WellBehavedStepIsSafe :
    (decodeWord (State.fetchWord (State.withFetchWord { State.reset with depth := 15 } 16 0x2345)) = .call 0x345#12 ∧
      ({ State.reset with depth := 15 } : State).depth.val < 16) ∧
    (decodeWord (State.fetchWord (State.withFetchWord { State.reset with depth := 1 } 16 0x00EE)) = .ret ∧
      0 < ({ State.reset with depth := 1 } : State).depth.val) ∧
    (decodeWord (State.fetchWord (State.withFetchWord { State.reset with i := 0xFFF#16 } 16 0xD001)) =
      .drw 0#4 0#4 1#4 ∧ (0xFFF#16).toNat + min (1#4).toNat (32 - (State.reset.readV 0#4).toNat % 32) ≤ 0x1000) := by
  decide

/-- For `DeadSlotsDoNotMatter`: the slot at `depth` itself is dead. -/
theorem test_witness_DeadSlots : ({ State.reset with depth := 3 } : State).depth.val ≤ 3 := by decide

/-- For `InvStep`: a state away from reset that meets the invariant: mid-program, one return address, at the last fetch. -/
theorem test_witness_InvStep : State.Inv { State.reset with
    pc := 0xFFE#16, i := 0xFFF#16, depth := 1, stack := State.reset.stack.set 0 0x1000#16,
    memory := [(0x200, 0x22#8)] } where
  memory_wf := by decide
  i_le := by decide
  pc_le := by decide
  stack_le := by decide
  timers_zero := by decide
  keypad_off := by decide
  fault_pc := by intro r h; cases h

/-- For `InvCommand`: a booted session that meets the invariant. -/
theorem test_witness_InvCommand : Session.Inv ⟨{ State.reset with
    pc := 0xFFE#16, i := 0xFFF#16, depth := 1, stack := State.reset.stack.set 0 0x1000#16,
    memory := [(0x200, 0x22#8)] }, .booted⟩ where
  core := test_witness_InvStep
  fresh := by intro h; cases h
  unrun := fun h => absurd rfl h

/-- For `SelfJumpFinishes`, V-JP-1. -/
theorem test_witness_SelfJumpFinishes :
    decodeWord (State.fetchWord { State.reset with memory := [(0x200, 0x12#8)] }) = .jp 0x200#12 ∧
    (0x200#12).toNat = State.reset.pc.toNat := by decide

/-- For `LoadRomResult`: the largest ROM and the smallest that is too large. -/
theorem test_witness_LoadRomResult : (List.replicate 3584 0#8).length ≤ 3584 ∧ 3584 < (List.replicate 3585 0#8).length := by
  simp only [List.length_replicate]; decide

/-- For `EntryPoint`: boots of an empty ROM and of two bytes. -/
theorem test_witness_EntryPoint : (boot []).isSome = true ∧ (boot [0x12#8, 0x00#8]).isSome = true := by decide

/-- For the statements about run states. -/
theorem test_witness_RunStates : State.reset.runState = .running ∧
    ({ State.reset with runState := .paused } : State).runState = .paused ∧
    ({ State.reset with runState := .quit } : State).runState = .quit := by decide

/-- For `HostWritesRunStateOnly` and `QuitIsTerminal`: commands that reply in a session that has quit. -/
theorem test_witness_QuitIsTerminal :
    (∃ r, command .pauseToggle ⟨{ State.reset with runState := .quit }, .booted⟩ = .next r) ∧
    (∃ r, command .step ⟨{ State.reset with runState := .quit }, .booted⟩ = .next r) ∧
    (∃ r, command .quit ⟨{ State.reset with runState := .quit }, .booted⟩ = .next r) :=
  ⟨⟨_, rfl⟩, ⟨_, rfl⟩, ⟨_, rfl⟩⟩

/-- For `BootLifecycle`: each phase. -/
theorem test_witness_BootLifecycle : BootPhase.booted ≠ .fresh ∧ BootPhase.failed ≠ .booted ∧
    BootPhase.missed ≠ .fresh ∧ BootPhase.missed ≠ .booted := by decide

/-- For `LoadRomImmediatelyAfterInitialize` and `HostWritesRunStateOnly`: each command but `Initialize` that replies, in a
fresh or a booted session. -/
theorem test_witness_LoadRomImmediatelyAfterInitialize :
    (∃ r, command .pauseToggle Session.fresh = .next r) ∧ (∃ r, command .quit Session.fresh = .next r) ∧
    (∃ r, command (.loadRom []) Session.fresh = .next r) ∧ (∃ r, command .step ⟨State.reset, .booted⟩ = .next r) :=
  ⟨⟨_, rfl⟩, ⟨_, rfl⟩, ⟨_, rfl⟩, ⟨_, rfl⟩⟩

/-- 92_eei_decisions.md D12, 00_scope.md section 6: `LoadRom` has its meaning immediately after `Initialize`, and none once
a `PauseToggle` or a `Quit` has come between. -/
theorem test_late_load (c : Command) (hc : c = .pauseToggle ∨ c = .quit) :
    (match command c Session.fresh with
      | .next r => command (.loadRom [0x12#8]) r.session
      | .fault f => .fault f
      | .refused e => .refused e) = .refused .lateLoadRom := by
  rcases hc with rfl | rfl <;> rfl

/-- For the statements whose one hypothesis is that `exec` or `step` answers a next state. -/
theorem test_witness_next : (∃ t, exec .cls State.reset = .next t) ∧ (∃ t, step State.reset = .next t) :=
  ⟨⟨_, rfl⟩, ⟨_, rfl⟩⟩

end Sys2Proof.Machine
end

section
/-! The byte order of the fetch (20_memory.md R34). -/

namespace Sys2Proof.Machine

/-- The fetched word as a number: the byte at `pc` is the more significant. -/
theorem State.fetchWord_toNat (s : State) :
    s.fetchWord.toNat = (s.byteAt s.pc.toNat).toNat * 256 + (s.byteAt (s.pc.toNat + 1)).toNat :=
  wordOfBytes_toNat _ _

/-- Settles O11: the word is that of the two bytes fetched, the first the more significant, and the decoder composes its
word from them in the same order. -/
theorem fetchIsBigEndian : Obligations.FetchIsBigEndian := by
  unfold Obligations.FetchIsBigEndian
  exact fun s => ⟨s.fetchWord_toNat, s.decode_fetchBytes⟩

end Sys2Proof.Machine
end

section
/-! The decoder's algorithm in the arithmetic of the fields (30_encoding.md R51, R54). -/

namespace Sys2Proof

/-- The class is the top field, so the quotient alone is its number. -/
theorem opClass_toNat (w : Word) : (opClass w).toNat = w.toNat / 4096 := by
  have := w.isLt
  rw [opClass, Laws.EncodedFields.toNat_field]
  omega

theorem fieldX_eq_ofNat (w : Word) : fieldX w = BitVec.ofNat 4 (w.toNat / 256) := by
  rw [fieldX, BitVec.extractLsb', Nat.shiftRight_eq_div_pow]

theorem fieldY_eq_ofNat (w : Word) : fieldY w = BitVec.ofNat 4 (w.toNat / 16) := by
  rw [fieldY, BitVec.extractLsb', Nat.shiftRight_eq_div_pow]

theorem fieldN_eq_ofNat (w : Word) : fieldN w = BitVec.ofNat 4 w.toNat := rfl

theorem fieldNN_eq_ofNat (w : Word) : fieldNN w = BitVec.ofNat 8 w.toNat := rfl

theorem fieldNNN_eq_ofNat (w : Word) : fieldNNN w = BitVec.ofNat 12 w.toNat := rfl

/-- A test of `NN` is a test of the word modulo 256. -/
theorem fieldNN_eq_iff (w : Word) (b : Byte) : fieldNN w = b ↔ w.toNat % 256 = b.toNat := by
  rw [← BitVec.toNat_inj, fieldNN_eq_ofNat, BitVec.toNat_ofNat]

/-- The decoder's match on the class as the algorithm's chain of tests (30_encoding.md R54). -/
theorem decodeWord_eq_ite (w : Word) :
    decodeWord w =
      if (opClass w).toNat = 0x0 ∧ fieldNN w = 0xE0#8 then .cls
      else if (opClass w).toNat = 0x0 ∧ fieldNN w = 0xEE#8 then .ret
      else if (opClass w).toNat = 0x1 then .jp (fieldNNN w)
      else if (opClass w).toNat = 0x2 then .call (fieldNNN w)
      else if (opClass w).toNat = 0x6 then .ldVx (fieldX w) (fieldNN w)
      else if (opClass w).toNat = 0x7 then .addVx (fieldX w) (fieldNN w)
      else if (opClass w).toNat = 0xA then .ldI (fieldNNN w)
      else if (opClass w).toNat = 0xD then .drw (fieldX w) (fieldY w) (fieldN w)
      else .unimpl w := by
  unfold decodeWord
  generalize (opClass w).toNat = c
  split
  case h_8 h0 h1 h2 h6 h7 hA hD =>
    rw [if_neg fun h => h0 h.1, if_neg fun h => h0 h.1, if_neg h1, if_neg h2, if_neg h6, if_neg h7, if_neg hA,
      if_neg hD]
  all_goals simp

/-- Settles O2: the decoder is the algorithm's chain of tests, and each field in it is what R51's arithmetic gives. -/
theorem decodeFollowsAlgorithm : Obligations.DecodeFollowsAlgorithm := by
  unfold Obligations.DecodeFollowsAlgorithm
  intro w
  simp only [decodeWord_eq_ite, fieldNN_eq_iff]
  rw [opClass_toNat, fieldX_eq_ofNat, fieldY_eq_ofNat, fieldN_eq_ofNat, fieldNN_eq_ofNat, fieldNNN_eq_ofNat]
  rfl

end Sys2Proof
end

section
/-! Control transfer: where a jump leaves `pc` (41_control_transfer.md R81). -/

namespace Sys2Proof.Machine

/-- A write of `pc` leaves nothing of the advance before it. -/
@[simp] theorem State.advance_writePc (s : State) (a : Word) : s.advance.writePc a = s.writePc a := rfl

/-- A jump writes its operand to `pc`, and that is all it does. -/
theorem exec_jp (nnn : Addr12) (s : State) : exec (.jp nnn) s = .next (s.writePc (addrOperand nnn)) :=
  congrArg Host.Outcome.next (s.advance_writePc (addrOperand nnn))

/-- Settles O18: the one effect of a jump is the write of `pc`, and the address operand is `NNN` as a 16-bit number. -/
theorem jpResult : Obligations.JpResult := by
  unfold Obligations.JpResult
  intro nnn s
  rw [exec_jp, addrOperand_eq, State.writePc]

end Sys2Proof.Machine
end

section
/-! Register operations: an advance of `pc` and one register write (42_register_ops.md R90, R91). -/

namespace Sys2Proof.Machine

theorem exec_ldVx (x : Nibble) (nn : Byte) (s : State) : exec (.ldVx x nn) s = .next (s.advance.writeV x nn) := rfl

theorem exec_addVx (x : Nibble) (nn : Byte) (s : State) :
    exec (.addVx x nn) s = .next (s.advance.writeV x (s.readV x + nn)) := rfl

/-- The frame of an advance and a register write: only `v` and `pc` can differ. -/
theorem State.advance_writeV_frame (s : State) (x : Nibble) (b : Byte) :
    s.advance.writeV x b = { s with v := (s.advance.writeV x b).v, pc := s.pc + 2#16 } := rfl

/-- An advance and a write of `V[x]` leave the other registers as they were, VF among them. -/
theorem State.advance_readV_writeV_ne (s : State) {x y : Nibble} (b : Byte) (h : y ≠ x) :
    (s.advance.writeV x b).readV y = s.readV y :=
  (s.advance.readV_writeV_ne b h).trans (s.advance_readV y)

/-- Settles O22: the next state is the advanced one with `NN` written to `V[X]`. -/
theorem ldVxResult : Obligations.LdVxResult := by
  unfold Obligations.LdVxResult
  intro x nn s
  exact ⟨s.advance.writeV x nn, exec_ldVx x nn s, s.advance.readV_writeV_same x nn,
    fun _ h => s.advance_readV_writeV_ne nn h, s.advance_writeV_frame x nn⟩

/-- Settles O23: the next state is the advanced one with the sum written to `V[X]`, and addition of bytes is addition
modulo 256. -/
theorem addVxResult : Obligations.AddVxResult := by
  unfold Obligations.AddVxResult
  intro x nn s
  refine ⟨s.advance.writeV x (s.readV x + nn), exec_addVx x nn s, ?_,
    fun _ h => s.advance_readV_writeV_ne _ h, s.advance_writeV_frame x _⟩
  rw [State.readV_writeV_same, BitVec.toNat_add]

end Sys2Proof.Machine
end


section
/-! Memory addressing: an advance of `pc` and one write of `I` (43_memory_addressing.md R95). -/

namespace Sys2Proof.Machine

/-- `LD I` advances and writes its operand to `I`, with no check of the address. -/
theorem exec_ldI (nnn : Addr12) (s : State) : exec (.ldI nnn) s = .next (s.advance.writeI (addrOperand nnn)) := rfl

/-- The frame of an advance and a write of `I`: only `i` and `pc` can differ. -/
theorem State.advance_writeI_eq (s : State) (a : Word) : s.advance.writeI a = { s with i := a, pc := s.pc + 2#16 } := rfl

/-- Settles O24: the effects of `LD I` are the advance and the write of `I`, and the address operand is `NNN` as a 16-bit
number. -/
theorem ldIResult : Obligations.LdIResult := by
  unfold Obligations.LdIResult
  intro nnn s
  rw [exec_ldI, State.advance_writeI_eq, addrOperand_eq]

end Sys2Proof.Machine
end

section
/-! Clearing the display: an advance of `pc` and one write of the display (44_draw_buffer.md R100). -/

namespace Sys2Proof.Machine

/-- `CLS` advances and writes the cleared display, whatever the display held; no register is written. -/
theorem exec_cls (s : State) : exec .cls s = .next (s.advance.writeDisplay Display.clear) := rfl

/-- The cells after a write of the display are those of the display written. -/
@[simp] theorem State.writeDisplay_cell (s : State) (d : Display) (col : Fin 64) (row : Fin 32) :
    (s.writeDisplay d).cell col row = Display.cell d col row := rfl

/-- The frame of an advance and a write of the display: only `display` and `pc` can differ. -/
theorem State.advance_writeDisplay_frame (s : State) (d : Display) :
    s.advance.writeDisplay d = { s with display := (s.advance.writeDisplay d).display, pc := s.pc + 2#16 } := rfl

/-- Settles O25: the next state is the advanced one with the cleared display written, and no cell of that display is on. -/
theorem clsResult : Obligations.ClsResult := by
  unfold Obligations.ClsResult
  intro s
  refine ⟨s.advance.writeDisplay Display.clear, exec_cls s, fun col row => ?_, s.advance_writeDisplay_frame _⟩
  rw [State.writeDisplay_cell, Display.cell_clear]

end Sys2Proof.Machine
end

section
/-! Pause and quit: a core that is not `Running` (60_exceptions.md R134, R135), under steps and under the host's
commands. -/

namespace Sys2Proof.Machine

/-! ### A core that does not step -/

/-- A core that is not `Running` may not step (40_fetch_decode_step.md R70). -/
theorem State.canStep_of_runState_ne {s : State} (h : s.runState ≠ .running) : s.canStep = false :=
  Bool.eq_false_iff.mpr fun hc => h (s.canStep_iff.mp hc).1

/-- A step that may not execute emits no event. -/
theorem stepDiag_gated {s : State} (h : s.canStep = false) : stepDiag s = none := by
  simp [stepDiag, h]

/-- A run never leaves a fixed point of the machine's step. -/
theorem run_of_step_fixed {M : Host.Core} {s : M.State} (h : M.step s = .next s) (n : Nat) : M.run n s = .next s := by
  induction n with
  | zero => rfl
  | succ n ih => simp only [Host.Core.run, h, ih]

/-! ### What the commands do to the core -/

/-- A pause of a `Running` core writes the run state only. -/
theorem pauseToggle_running {s : State} (h : s.runState = .running) :
    pauseToggle s = { s with runState := .paused } := by
  simp [pauseToggle, h]

/-- The end of a pause writes the run state only. -/
theorem pauseToggle_paused {s : State} (h : s.runState = .paused) :
    pauseToggle s = { s with runState := .running } := by
  simp [pauseToggle, h]

/-- `PauseToggle` has no effect in `Quit`. -/
theorem pauseToggle_quit {s : State} (h : s.runState = .quit) : pauseToggle s = s := by
  simp only [pauseToggle, h]
  rw [← h]

/-- A successful `LoadRom` writes memory only (70_reset_and_hazards.md R151). -/
theorem loadRom_frame {bytes : List Byte} {s t : State} (h : loadRom bytes s = some t) :
    t = { s with memory := t.memory } := by
  unfold loadRom at h
  split at h
  · cases h
  · cases h; rfl

/-- A `LoadRom` that replies, with or without an error, has written memory only. -/
theorem command_loadRom_frame {bytes : List Byte} {m : Session} {r : Reply} (h : command (.loadRom bytes) m = .next r) :
    r.session.core = { m.core with memory := r.session.core.memory } := by
  simp only [command] at h
  split at h
  case h_1 =>
    split at h
    next t ht => cases h; exact loadRom_frame ht
    next => cases h; rfl
  all_goals cases h

/-- A `Step` that replies is the step of a booted core, with its event. -/
theorem command_step_cases {m : Session} {r : Reply} (h : command .step m = .next r) :
    m.phase = .booted ∧ ∃ t, step m.core = .next t ∧ r = ⟨⟨t, .booted⟩, none, stepDiag m.core⟩ := by
  simp only [command] at h
  split at h
  case h_1 hp =>
    split at h
    next t ht => cases h; exact ⟨hp, t, ht, rfl⟩
    all_goals cases h
  all_goals cases h

/-- A `Step` that replies for a core that may not step gives back the session, and no event. -/
theorem command_step_gated {m : Session} {r : Reply} (hg : m.core.canStep = false) (h : command .step m = .next r) :
    r.session = m ∧ r.event = none := by
  obtain ⟨hp, t, ht, rfl⟩ := command_step_cases h
  obtain rfl : m.core = t := by simpa [step_gated _ hg] using ht
  exact ⟨by rw [← hp], stepDiag_gated hg⟩

/-- Settles O51: a paused core may not step, so it is a fixed point of `step`, and the pause and its end write the run
state only. -/
theorem pausePreserves : Obligations.PausePreserves := by
  unfold Obligations.PausePreserves
  refine ⟨fun s n hs => ?_, fun s hs => ?_⟩
  · have hgate : s.canStep = false := State.canStep_of_runState_ne (by simp [hs])
    exact run_of_step_fixed (step_gated s hgate) n
  · rw [pauseToggle_running hs, pauseToggle_paused rfl, ← hs]
    exact ⟨rfl, rfl⟩

/-- Settles O52: in `Quit` a `Step` is gated, a `LoadRom` writes memory only, `PauseToggle` has no effect and `Quit` writes
the run state it finds. -/
theorem quitIsTerminal : Obligations.QuitIsTerminal := by
  unfold Obligations.QuitIsTerminal viewDisplay viewFault
  intro c m r hq h hinit
  cases c with
  | init => exact absurd rfl hinit
  | loadRom bytes =>
    rw [command_loadRom_frame h]
    exact ⟨hq, nofun, rfl, rfl⟩
  | step =>
    have hgate : m.core.canStep = false := State.canStep_of_runState_ne (by simp [hq])
    obtain ⟨hsession, hevent⟩ := command_step_gated hgate h
    rw [hsession]
    exact ⟨hq, fun _ => ⟨rfl, hevent⟩, rfl, rfl⟩
  | pauseToggle =>
    cases h
    rw [pauseToggle_quit hq]
    exact ⟨hq, nofun, rfl, rfl⟩
  | quit =>
    cases h
    exact ⟨rfl, nofun, rfl, rfl⟩

end Sys2Proof.Machine
end

section
/-! The first step after a boot (70_reset_and_hazards.md R152, R155): the booted state is the reset state with the ROM
written over its memory. -/

namespace Sys2Proof.Machine

/-- A `LoadRom` succeeds when the ROM fits, and then writes its bytes from 0x200 onward (70_reset_and_hazards.md R151). -/
theorem loadRom_eq_some_iff {bytes : List Byte} {s t : State} :
    loadRom bytes s = some t ↔
      bytes.length ≤ 3584 ∧ { s with memory := Memory.writeBytes s.memory 0x200 bytes } = t := by
  simp [loadRom]

/-- Above the font table every byte after `Initialize` is 0 (10_state.md R10, R23). -/
theorem State.reset_byteAt_above_font {a : Nat} (h : 80 ≤ a) : State.reset.byteAt a = 0#8 :=
  dif_neg (Nat.not_lt.mpr h)

/-- From 0x200 onward a booted core holds the ROM, and 0 where the ROM has no byte. -/
theorem boot_byteAt {bytes : List Byte} {s : State} (h : boot bytes = some s) (k : Nat) :
    s.byteAt (0x200 + k) = bytes.getD k 0#8 := by
  obtain ⟨hlen, rfl⟩ := loadRom_eq_some_iff.mp h
  by_cases hk : k < bytes.length
  · rw [List.getD_eq_getElem _ _ hk]
    exact Memory.byteAt_writeBytes_inside bytes Memory.wf_reset (by omega) k hk
  · rw [List.getD_eq_default _ _ (by omega)]
    calc Memory.byteAt (Memory.writeBytes State.reset.memory 0x200 bytes) (0x200 + k)
        = State.reset.byteAt (0x200 + k) := Memory.byteAt_writeBytes_outside _ bytes (by omega)
      _ = 0#8 := State.reset_byteAt_above_font (by omega)

/-- A booted core has its `pc` at the entry point. -/
theorem boot_pc {bytes : List Byte} {s : State} (h : boot bytes = some s) : s.pc = 0x200#16 := by
  rw [loadRom_frame h]; rfl

/-- A booted core runs, with no fault latched. -/
theorem boot_canStep {bytes : List Byte} {s : State} (h : boot bytes = some s) : s.canStep = true := by
  rw [loadRom_frame h]; rfl

/-- The first fetch of a booted core is within memory. -/
theorem boot_fetchOutOfBounds {bytes : List Byte} {s : State} (h : boot bytes = some s) :
    s.fetchOutOfBounds = false := by
  simp [State.fetchOutOfBounds, boot_pc h]

/-- The first word a booted core fetches is that of the ROM's first two bytes. -/
theorem boot_fetchWord {bytes : List Byte} {s : State} (h : boot bytes = some s) :
    s.fetchWord = wordOfBytes (bytes.getD 0 0#8) (bytes.getD 1 0#8) := by
  rw [State.fetchWord, boot_pc h]
  exact congrArg₂ wordOfBytes (boot_byteAt h 0) (boot_byteAt h 1)

/-- Settles O48: a booted core may step and fetch at 0x200, where its memory holds the ROM, and an empty ROM leaves two
zero bytes there. -/
theorem entryPoint : Obligations.EntryPoint := by
  unfold Obligations.EntryPoint
  intro bytes s h
  have hword := boot_fetchWord h
  refine ⟨boot_pc h, ?_, step_exec s (boot_canStep h) (boot_fetchOutOfBounds h), ?_⟩
  · rw [hword, wordOfBytes_toNat]
  · rintro rfl
    rw [hword]
    rfl

end Sys2Proof.Machine
end

section
/-! The decoder's outcomes (30_encoding.md R51, R54, R55): for each, the fields that select it, once, as one inductive
relation; the round trips and the table's agreement are case analyses of it. -/

namespace Sys2Proof

open Laws.EncodedFields (toNat_field toNat_append_add)

/-! ### The fields -/

theorem fieldNN_toNat (w : Word) : (fieldNN w).toNat = w.toNat % 256 := by
  rw [fieldNN_eq_ofNat, BitVec.toNat_ofNat]

/-- Settles O1: each field is a quotient and a remainder of the word, and the two identities are arithmetic. -/
theorem fieldsAreTheBits : Obligations.FieldsAreTheBits := by
  unfold Obligations.FieldsAreTheBits
  intro w
  have := w.isLt
  refine ⟨opClass_toNat w, ?_, ?_, ?_, fieldNN_toNat w, ?_, ?_, ?_⟩ <;>
    simp only [fieldX, fieldY, fieldN, fieldNN, fieldNNN, toNat_field] <;> omega

/-- A word is its class and its address field. -/
theorem append_fieldNNN (w : Word) : opClass w ++ fieldNNN w = w := by
  have := w.isLt
  apply BitVec.eq_of_toNat_eq
  simp only [opClass, fieldNNN, toNat_field, toNat_append_add]
  omega

/-- A word is its class, its `X` and its `NN`. -/
theorem append_fieldX_fieldNN (w : Word) : opClass w ++ fieldX w ++ fieldNN w = w := by
  have := w.isLt
  apply BitVec.eq_of_toNat_eq
  simp only [opClass, fieldX, fieldNN, toNat_field, toNat_append_add]
  omega

/-- A word is its class, its `X`, its `Y` and its `N`. -/
theorem append_fieldX_fieldY_fieldN (w : Word) : opClass w ++ fieldX w ++ fieldY w ++ fieldN w = w := by
  have := w.isLt
  apply BitVec.eq_of_toNat_eq
  simp only [opClass, fieldX, fieldY, fieldN, toNat_field, toNat_append_add]
  omega

/-- Masking with 0xF000 tests the class. -/
theorem and_classMask_eq_iff (w : Word) (c : Nibble) : w &&& 0xF000#16 = c ++ 0#12 ↔ opClass w = c := by
  rw [and_classMask, ← BitVec.toNat_inj, ← BitVec.toNat_inj, toNat_append_add, toNat_append_add]
  omega

/-- Masking with 0xF0FF tests for class 0 and a value of `NN`; the `X` nibble takes no part (30_encoding.md R57). -/
theorem and_sysMask_eq_iff (w : Word) (b : Byte) :
    w &&& 0xF0FF#16 = 0#8 ++ b ↔ opClass w = 0x0#4 ∧ fieldNN w = b := by
  have := b.isLt; have := (fieldNN w).isLt
  rw [and_sysMask, ← BitVec.toNat_inj, ← BitVec.toNat_inj, ← BitVec.toNat_inj]
  simp only [toNat_append_add, BitVec.toNat_ofNat]
  omega

/-- The mask and pattern of `CLS`. -/
theorem and_sysMask_eq_cls_iff (w : Word) :
    w &&& 0xF0FF#16 = 0x00E0#16 ↔ opClass w = 0x0#4 ∧ fieldNN w = 0xE0#8 := and_sysMask_eq_iff w 0xE0#8

/-- The mask and pattern of `RET`. -/
theorem and_sysMask_eq_ret_iff (w : Word) :
    w &&& 0xF0FF#16 = 0x00EE#16 ↔ opClass w = 0x0#4 ∧ fieldNN w = 0xEE#8 := and_sysMask_eq_iff w 0xEE#8

/-! ### What each word decodes to -/

/-- The list of 45_unimplemented.md in terms of the fields: what is left by the eight instructions. -/
theorem isUnimplWord_iff (w : Word) :
    isUnimplWord w = true ↔
      opClass w ∉ [0x1#4, 0x2#4, 0x6#4, 0x7#4, 0xA#4, 0xD#4] ∧
        (opClass w = 0x0#4 → fieldNN w ≠ 0xE0#8 ∧ fieldNN w ≠ 0xEE#8) := by
  have hlist : isUnimplWord w = true ↔
      opClass w ∈ [0x3#4, 0x4#4, 0x5#4, 0x8#4, 0x9#4, 0xB#4, 0xC#4, 0xE#4, 0xF#4] ∨
        opClass w = 0x0#4 ∧ fieldNN w ≠ 0xE0#8 ∧ fieldNN w ≠ 0xEE#8 := by
    simp [isUnimplWord, fieldNN_toNat, ← opClass_toNat, ← BitVec.toNat_inj, and_assoc]
  have hrest : ∀ c : Nibble, c ∈ [0x3#4, 0x4#4, 0x5#4, 0x8#4, 0x9#4, 0xB#4, 0xC#4, 0xE#4, 0xF#4] ↔
      c ∉ [0x1#4, 0x2#4, 0x6#4, 0x7#4, 0xA#4, 0xD#4] ∧ c ≠ 0x0#4 := by decide
  rw [hlist, hrest]
  by_cases hc : opClass w = 0x0#4
  · simp [hc]
  · simp only [hc, ne_eq, not_false_eq_true, and_true, false_and, or_false, false_implies]

/-- The decoder's outcomes, each with the fields that select it (30_encoding.md R54). -/
inductive Decodes (w : Word) : Instr → Prop
  | cls (hc : opClass w = 0x0#4) (hnn : fieldNN w = 0xE0#8) : Decodes w .cls
  | ret (hc : opClass w = 0x0#4) (hnn : fieldNN w = 0xEE#8) : Decodes w .ret
  | jp (hc : opClass w = 0x1#4) : Decodes w (.jp (fieldNNN w))
  | call (hc : opClass w = 0x2#4) : Decodes w (.call (fieldNNN w))
  | ldVx (hc : opClass w = 0x6#4) : Decodes w (.ldVx (fieldX w) (fieldNN w))
  | addVx (hc : opClass w = 0x7#4) : Decodes w (.addVx (fieldX w) (fieldNN w))
  | ldI (hc : opClass w = 0xA#4) : Decodes w (.ldI (fieldNNN w))
  | drw (hc : opClass w = 0xD#4) : Decodes w (.drw (fieldX w) (fieldY w) (fieldN w))
  | unimpl (h : isUnimplWord w = true) : Decodes w (.unimpl w)

/-- Every word decodes to the outcome its fields select. -/
theorem decodes_decodeWord (w : Word) : Decodes w (decodeWord w) := by
  unfold decodeWord
  split
  case h_1 hc =>
    have hc : opClass w = 0x0#4 := BitVec.eq_of_toNat_eq hc
    split_ifs with h1 h2
    · exact .cls hc h1
    · exact .ret hc h2
    · exact .unimpl ((isUnimplWord_iff w).mpr ⟨by simp [hc], fun _ => ⟨h1, h2⟩⟩)
  case h_2 hc => exact .jp (BitVec.eq_of_toNat_eq hc)
  case h_3 hc => exact .call (BitVec.eq_of_toNat_eq hc)
  case h_4 hc => exact .ldVx (BitVec.eq_of_toNat_eq hc)
  case h_5 hc => exact .addVx (BitVec.eq_of_toNat_eq hc)
  case h_6 hc => exact .ldI (BitVec.eq_of_toNat_eq hc)
  case h_7 hc => exact .drw (BitVec.eq_of_toNat_eq hc)
  case h_8 h0 h1 h2 h6 h7 hA hD =>
    refine .unimpl ((isUnimplWord_iff w).mpr ⟨?_, fun hc => absurd (congrArg BitVec.toNat hc) h0⟩)
    simpa [← BitVec.toNat_inj] using And.intro h1 ⟨h2, h6, h7, hA, hD⟩

/-- The fields select one outcome, the decoder's. -/
theorem Decodes.decodeWord_eq {w : Word} {i : Instr} (h : Decodes w i) : decodeWord w = i := by
  rw [decodeWord_eq_ite]
  cases h with
  | cls hc hnn => simp [hc, hnn]
  | ret hc hnn => simp [hc, hnn]
  | unimpl h =>
    obtain ⟨hclass, hnn⟩ := (isUnimplWord_iff w).mp h
    have hE0 : ¬ ((opClass w).toNat = 0x0 ∧ fieldNN w = 0xE0#8) :=
      fun h => (hnn (BitVec.eq_of_toNat_eq h.1)).1 h.2
    have hEE : ¬ ((opClass w).toNat = 0x0 ∧ fieldNN w = 0xEE#8) :=
      fun h => (hnn (BitVec.eq_of_toNat_eq h.1)).2 h.2
    rw [if_neg hE0, if_neg hEE]
    simp [← BitVec.toNat_inj] at hclass
    simp [hclass]
  | _ hc => simp [hc]

/-- The decoder's answer is the outcome that the fields select. -/
theorem decodeWord_eq_iff {w : Word} {i : Instr} : decodeWord w = i ↔ Decodes w i :=
  ⟨fun h => h ▸ decodes_decodeWord w, Decodes.decodeWord_eq⟩

/-- The decoder answers `unimpl` on the listed words, and always with the word itself (45_unimplemented.md R110). -/
theorem decodeWord_eq_unimpl_iff {w u : Word} : decodeWord w = .unimpl u ↔ isUnimplWord w = true ∧ u = w := by
  rw [decodeWord_eq_iff]
  constructor
  · rintro ⟨⟩
    exact ⟨‹_›, rfl⟩
  · rintro ⟨h, rfl⟩
    exact .unimpl h

/-- Only `unimpl` has a condition, and the decoder's outcome comes with it. -/
theorem Decodes.wellFormed {w : Word} {i : Instr} (h : Decodes w i) : i.wellFormed = true := by
  cases h with
  | unimpl h => exact h
  | _ => rfl

/-- Settles O7: the decoder's outcomes are well formed, and `unimpl` is the outcome of the listed words. -/
theorem decodeIsWellFormed : Obligations.DecodeIsWellFormed := by
  unfold Obligations.DecodeIsWellFormed
  intro w
  exact ⟨(decodes_decodeWord w).wellFormed, by simp [decodeWord_eq_unimpl_iff]⟩

/-! ### The round trips -/

/-- The encoding of an instruction has the fields that select it. -/
theorem decodes_encode {i : Instr} (h : i.wellFormed = true) : Decodes (encode i) i := by
  cases i with
  | cls => exact .cls rfl rfl
  | ret => exact .ret rfl rfl
  | jp nnn =>
    obtain ⟨hc, hnnn⟩ := Laws.EncodedFields.jp nnn
    simpa only [hnnn] using Decodes.jp hc
  | call nnn =>
    obtain ⟨hc, hnnn⟩ := Laws.EncodedFields.call nnn
    simpa only [hnnn] using Decodes.call hc
  | ldVx x nn =>
    obtain ⟨hc, hx, hnn⟩ := Laws.EncodedFields.ldVx x nn
    simpa only [hx, hnn] using Decodes.ldVx hc
  | addVx x nn =>
    obtain ⟨hc, hx, hnn⟩ := Laws.EncodedFields.addVx x nn
    simpa only [hx, hnn] using Decodes.addVx hc
  | ldI nnn =>
    obtain ⟨hc, hnnn⟩ := Laws.EncodedFields.ldI nnn
    simpa only [hnnn] using Decodes.ldI hc
  | drw x y n =>
    obtain ⟨hc, hx, hy, hn⟩ := Laws.EncodedFields.drw x y n
    simpa only [hx, hy, hn] using Decodes.drw hc
  | unimpl w => exact .unimpl h

/-- Settles O4: the encoding has the fields by which the decoder selects the instruction, operands included. -/
theorem decodeEncodeRoundTrip : Obligations.DecodeEncodeRoundTrip := by
  unfold Obligations.DecodeEncodeRoundTrip
  exact fun _ h => decodeWord_eq_iff.mpr (decodes_encode h)

/-- A 16-bit word as the table numbers it is the number modulo `2 ^ 16`. -/
theorem tableWord_16 (w : Nat) : tableWord 16 w = BitVec.ofNat 16 w :=
  BitVec.eq_of_toNat_eq (by simp [tableWord])

/-- The decoder reads from a 16-bit table word what the word decodes to. -/
theorem decodeTableWord_16 (w : Nat) : decodeTableWord 16 w = some (decodeWord (BitVec.ofNat 16 w)) := by
  rw [decodeTableWord, tableBytes, decode, wordOfBytes_split, tableWord_16]

/-- Settles O5: the two bytes of a word, and the word of its own number, are the word, so this is the round trip of the
words. -/
theorem decodeBytesRoundTrip : Obligations.DecodeBytesRoundTrip := by
  unfold Obligations.DecodeBytesRoundTrip
  intro i rest h
  have hi : decodeWord (encode i) = i := decodeEncodeRoundTrip i h
  constructor
  · rw [encodeBytes, List.cons_append, List.cons_append, List.nil_append, decode, wordOfBytes_split, hi]
  · rw [decodeTableWord_16, BitVec.ofNat_toNat, BitVec.setWidth_eq, hi]

/-- A `CLS` or `RET` word is canonical with its `X` nibble cleared. -/
theorem canonicalWord_of_sys {w : Word} (h : w &&& 0xF0FF#16 = 0x00E0#16 ∨ w &&& 0xF0FF#16 = 0x00EE#16) :
    canonicalWord w = w &&& 0xF0FF#16 := if_pos h

/-- Every word but those of `CLS` and `RET` is canonical. -/
theorem canonicalWord_of_not_sys {w : Word} (h : ¬ (opClass w = 0x0#4 ∧ (fieldNN w = 0xE0#8 ∨ fieldNN w = 0xEE#8))) :
    canonicalWord w = w := by
  refine if_neg ?_
  rwa [and_sysMask_eq_cls_iff, and_sysMask_eq_ret_iff, ← and_or_left]

/-- The fields an instruction carries are the whole of its word, but for the `X` nibble of `CLS` and `RET`. -/
theorem Decodes.encode_eq {w : Word} {i : Instr} (h : Decodes w i) : encode i = canonicalWord w := by
  have hclass {c : Nibble} (hc : opClass w = c) (h0 : c ≠ 0x0#4) : canonicalWord w = w :=
    canonicalWord_of_not_sys fun hsys => h0 (hc.symm.trans hsys.1)
  cases h with
  | cls hc hnn =>
    have hw := (and_sysMask_eq_cls_iff w).mpr ⟨hc, hnn⟩
    rw [canonicalWord_of_sys (.inl hw), hw, encode]
  | ret hc hnn =>
    have hw := (and_sysMask_eq_ret_iff w).mpr ⟨hc, hnn⟩
    rw [canonicalWord_of_sys (.inr hw), hw, encode]
  | jp hc => rw [hclass hc (by decide), encode, ← hc, append_fieldNNN]
  | call hc => rw [hclass hc (by decide), encode, ← hc, append_fieldNNN]
  | ldVx hc => rw [hclass hc (by decide), encode, ← hc, append_fieldX_fieldNN]
  | addVx hc => rw [hclass hc (by decide), encode, ← hc, append_fieldX_fieldNN]
  | ldI hc => rw [hclass hc (by decide), encode, ← hc, append_fieldNNN]
  | drw hc => rw [hclass hc (by decide), encode, ← hc, append_fieldX_fieldY_fieldN]
  | unimpl hu =>
    refine (canonicalWord_of_not_sys ?_).symm
    rintro ⟨hc : opClass w = 0x0#4, hnn⟩
    obtain ⟨hE0, hEE⟩ := ((isUnimplWord_iff w).mp hu).2 hc
    exact hnn.elim hE0 hEE

/-- Settles O6: what a word decodes to carries the whole word, but for the nibble that the canonical word clears. -/
theorem encodeDecodeCanonical : Obligations.EncodeDecodeCanonical := by
  unfold Obligations.EncodeDecodeCanonical
  exact fun w => (decodes_decodeWord w).encode_eq

/-- Settles O8: the decoder evaluated on the sample words. -/
theorem sampleWordsDecode : Obligations.SampleWordsDecode := by
  unfold Obligations.SampleWordsDecode
  exact ⟨rfl, rfl, rfl, rfl, rfl, rfl, rfl, rfl, rfl, rfl, rfl, rfl⟩

/-! ### The opcode table -/

/-- Each instruction row matches exactly the words whose instruction has its mnemonic. -/
theorem rowMatches_iff_mnemonic (w : Word) :
    ∀ r ∈ instructionRows, rowMatches r w = true ↔ (decodeWord w).mnemonic = r.mnemonic := by
  have hjp : w &&& 0xF000#16 = 0x1000#16 ↔ opClass w = 0x1#4 := and_classMask_eq_iff w 0x1#4
  have hcall : w &&& 0xF000#16 = 0x2000#16 ↔ opClass w = 0x2#4 := and_classMask_eq_iff w 0x2#4
  have hldVx : w &&& 0xF000#16 = 0x6000#16 ↔ opClass w = 0x6#4 := and_classMask_eq_iff w 0x6#4
  have haddVx : w &&& 0xF000#16 = 0x7000#16 ↔ opClass w = 0x7#4 := and_classMask_eq_iff w 0x7#4
  have hldI : w &&& 0xF000#16 = 0xA000#16 ↔ opClass w = 0xA#4 := and_classMask_eq_iff w 0xA#4
  have hdrw : w &&& 0xF000#16 = 0xD000#16 ↔ opClass w = 0xD#4 := and_classMask_eq_iff w 0xD#4
  have hd := decodes_decodeWord w
  generalize decodeWord w = i at hd ⊢
  simp only [instructionRows, List.forall_mem_cons, rowMatches, beq_iff_eq, and_sysMask_eq_cls_iff,
    and_sysMask_eq_ret_iff, hjp, hcall, hldVx, haddVx, hldI, hdrw]
  cases hd with
  | cls hc hnn => simp [hc, hnn, Instr.mnemonic]
  | ret hc hnn => simp [hc, hnn, Instr.mnemonic]
  | unimpl h =>
    obtain ⟨hclass, hnn⟩ := (isUnimplWord_iff w).mp h
    have hE0 : ¬ (opClass w = 0x0#4 ∧ fieldNN w = 0xE0#8) := fun h => (hnn h.1).1 h.2
    have hEE : ¬ (opClass w = 0x0#4 ∧ fieldNN w = 0xEE#8) := fun h => (hnn h.1).2 h.2
    simp only [List.mem_cons, not_or] at hclass
    simp [hE0, hEE, hclass, Instr.mnemonic]
  | _ hc => simp [hc, Instr.mnemonic]

/-- An instruction that is not of an instruction row is `UNIMPL`. -/
theorem mnemonic_mem_or_eq_unimpl (i : Instr) :
    (∃ r ∈ instructionRows, r.mnemonic = i.mnemonic) ∨ i.mnemonic = "UNIMPL" := by
  cases i <;> simp [instructionRows, Instr.mnemonic]

/-- The first row that matches a word has the mnemonic of its instruction: an instruction row where there is one that
matches, else one of the `UNIMPL` rows, the last of which matches every word. -/
theorem find?_opcodeTable (w : Word) :
    (opcodeTable.find? (fun r => rowMatches r w)).map (fun r => r.mnemonic) = some (decodeWord w).mnemonic := by
  rw [opcodeTable, List.find?_append]
  cases h : instructionRows.find? (fun r => rowMatches r w) with
  | some r =>
    have hr : rowMatches r w = true := List.find?_some (p := fun r => rowMatches r w) h
    have hm := (rowMatches_iff_mnemonic w r (List.mem_of_find?_eq_some h)).mp hr
    simp [hm]
  | none =>
    have hnone := List.find?_eq_none.mp h
    have hunimpl : (decodeWord w).mnemonic = "UNIMPL" := by
      refine (mnemonic_mem_or_eq_unimpl _).resolve_left ?_
      rintro ⟨r, hr, hm⟩
      exact hnone r hr ((rowMatches_iff_mnemonic w r hr).mpr hm.symm)
    obtain ⟨r, hr⟩ : ∃ r, unimplRows.find? (fun r => rowMatches r w) = some r :=
      Option.isSome_iff_exists.mp
        (List.find?_isSome.mpr ⟨⟨"UNIMPL", 0x0000#16, 0x0000#16⟩, by simp [unimplRows], by simp [rowMatches]⟩)
    have hall : ∀ r ∈ unimplRows, r.mnemonic = "UNIMPL" := by decide
    simp [hr, hunimpl, hall r (List.mem_of_find?_eq_some hr)]

/-- Settles O3: a row matches by the mnemonic of the instruction, and the instruction rows' mnemonics are distinct. -/
theorem opcodeTableAgrees : Obligations.OpcodeTableAgrees := by
  unfold Obligations.OpcodeTableAgrees
  refine ⟨find?_opcodeTable, ?_⟩
  have hdistinct : instructionRows.Pairwise (fun r r' => r.mnemonic ≠ r'.mnemonic) := by decide
  refine hdistinct.imp_of_mem fun hr hr' hne w hboth => hne ?_
  rw [← (rowMatches_iff_mnemonic w _ hr).mp hboth.1, ← (rowMatches_iff_mnemonic w _ hr').mp hboth.2]

end Sys2Proof
end

section
/-! Everything an instruction can do, once, as one inductive relation with a constructor per way it can end. Each fault is
precise, so all of them are one constructor. What later proofs need of `exec` is a case analysis of this relation. -/

namespace Sys2Proof.Machine

/-! ### The cases of each instruction -/

/-- What the loops of `DRW` leave: the canvas after drawing the instruction's sprite onto the display. -/
def State.canvas (s : State) (x y n : Nibble) : Canvas :=
  drawSprite s.spriteByte s.display (s.spriteCol x) (s.spriteRow y) (spriteRows (s.spriteRow y) n)

/-- The state a `DRW` that executes leaves. -/
def State.drawn (s : State) (x y n : Nibble) : State :=
  (s.advance.writeDisplay (s.canvas x y n).display).writeVF (collisionFlag (s.canvas x y n).collision)

/-- The rows of the instruction's sprite that the bottom edge leaves (44_draw_buffer.md R101). -/
theorem spriteRows_spriteRow (s : State) (y n : Nibble) :
    spriteRows (s.spriteRow y) n = min n.toNat (32 - (s.readV y).toNat % 32) := rfl

/-- An unimplemented opcode only advances (45_unimplemented.md R110). -/
theorem exec_unimpl (w : Word) (s : State) : exec (.unimpl w) s = .next s.advance := rfl

/-- `CALL` on a stack that is not full (41_control_transfer.md R82). -/
theorem exec_call_of_lt (nnn : Addr12) (s : State) (h : s.depth.val < 16) :
    exec (.call nnn) s = .next { s with
      stack := s.stack.set s.depth.val (s.pc + 2#16) h
      depth := ⟨s.depth.val + 1, Nat.succ_lt_succ h⟩
      pc := addrOperand nnn } := by
  rw [exec, execCall, State.push_of_lt s.advance _ h]
  rfl

/-- `CALL` on a full stack. -/
theorem exec_call_full (nnn : Addr12) (s : State) (h : s.depth.val = 16) :
    exec (.call nnn) s = .next (s.raise .callStackOverflow) := by
  rw [exec, execCall, State.push_full s.advance _ h]

/-- `RET` on a stack that is not empty (41_control_transfer.md R80). -/
theorem exec_ret_of_pos (s : State) (h : 0 < s.depth.val) (hi : s.depth.val - 1 < 16) (hd : s.depth.val - 1 < 17) :
    exec .ret s = .next { s with pc := s.stack[s.depth.val - 1]'hi, depth := ⟨s.depth.val - 1, hd⟩ } := by
  rw [exec, execRet, State.advance_pop s h]
  rfl

/-- `RET` on an empty stack. -/
theorem exec_ret_empty (s : State) (h : s.depth.val = 0) : exec .ret s = .next (s.raise .callStackUnderflow) := by
  rw [exec, execRet, State.pop_empty s.advance h]

/-- `DRW` of a sprite that lies in memory (44_draw_buffer.md R101). -/
theorem exec_drw_of_inBounds (x y n : Nibble) (s : State)
    (h : s.spriteOutOfBounds (spriteRows (s.spriteRow y) n) = false) :
    exec (.drw x y n) s = .next (s.drawn x y n) :=
  if_neg (by simp [h])

/-- `DRW` of a sprite that leaves memory (60_exceptions.md R124). -/
theorem exec_drw_outOfBounds (x y n : Nibble) (s : State)
    (h : s.spriteOutOfBounds (spriteRows (s.spriteRow y) n) = true) :
    exec (.drw x y n) s = .next (s.raise .spriteAddressOutOfBounds) :=
  if_pos h

/-! ### The one inversion of `exec` -/

/-- The instructions that fault in a state, with their cause (60_exceptions.md R122 to R124). -/
inductive Raises (s : State) : Instr → FaultCause → Prop
  | callFull (nnn : Addr12) (h : s.depth.val = 16) : Raises s (.call nnn) .callStackOverflow
  | retEmpty (h : s.depth.val = 0) : Raises s .ret .callStackUnderflow
  | drwOutOfBounds (x y n : Nibble) (h : s.spriteOutOfBounds (spriteRows (s.spriteRow y) n) = true) :
      Raises s (.drw x y n) .spriteAddressOutOfBounds

/-- The ways an instruction ends: the fault it raises, or its own effect. -/
inductive Effect (s : State) : Instr → State → Prop
  | fault {i : Instr} {c : FaultCause} (h : Raises s i c) : Effect s i (s.raise c)
  | cls : Effect s .cls (s.advance.writeDisplay Display.clear)
  | ret (h : 0 < s.depth.val) (hi : s.depth.val - 1 < 16) (hd : s.depth.val - 1 < 17) :
      Effect s .ret { s with pc := s.stack[s.depth.val - 1]'hi, depth := ⟨s.depth.val - 1, hd⟩ }
  | jp (nnn : Addr12) : Effect s (.jp nnn) (s.writePc (addrOperand nnn))
  | call (nnn : Addr12) (h : s.depth.val < 16) :
      Effect s (.call nnn) { s with
        stack := s.stack.set s.depth.val (s.pc + 2#16) h
        depth := ⟨s.depth.val + 1, Nat.succ_lt_succ h⟩
        pc := addrOperand nnn }
  | ldVx (x : Nibble) (nn : Byte) : Effect s (.ldVx x nn) (s.advance.writeV x nn)
  | addVx (x : Nibble) (nn : Byte) : Effect s (.addVx x nn) (s.advance.writeV x (s.readV x + nn))
  | ldI (nnn : Addr12) : Effect s (.ldI nnn) (s.advance.writeI (addrOperand nnn))
  | drw (x y n : Nibble) (h : s.spriteOutOfBounds (spriteRows (s.spriteRow y) n) = false) :
      Effect s (.drw x y n) (s.drawn x y n)
  | unimpl (w : Word) : Effect s (.unimpl w) s.advance

/-- An instruction that faults in a state ends with the latch set and nothing else changed. -/
theorem Raises.exec_eq {s : State} {i : Instr} {c : FaultCause} (h : Raises s i c) : exec i s = .next (s.raise c) := by
  cases h with
  | callFull nnn h => exact exec_call_full nnn s h
  | retEmpty h => exact exec_ret_empty s h
  | drwOutOfBounds x y n h => exact exec_drw_outOfBounds x y n s h

/-- Each way to end is what `exec` answers. -/
theorem Effect.exec_eq {s t : State} {i : Instr} (h : Effect s i t) : exec i s = .next t := by
  cases h with
  | fault h => exact h.exec_eq
  | cls => exact exec_cls s
  | ret h hi hd => exact exec_ret_of_pos s h hi hd
  | jp nnn => exact exec_jp nnn s
  | call nnn h => exact exec_call_of_lt nnn s h
  | ldVx x nn => exact exec_ldVx x nn s
  | addVx x nn => exact exec_addVx x nn s
  | ldI nnn => exact exec_ldI nnn s
  | drw x y n h => exact exec_drw_of_inBounds x y n s h
  | unimpl w => exact exec_unimpl w s

/-- Every instruction ends in some way, in every state. -/
theorem exists_effect (i : Instr) (s : State) : ∃ t, Effect s i t := by
  have hdepth := s.depth.isLt
  cases i with
  | cls => exact ⟨_, .cls⟩
  | ret =>
    rcases Nat.eq_zero_or_pos s.depth.val with h | h
    · exact ⟨_, .fault (.retEmpty h)⟩
    · exact ⟨_, .ret h (by omega) (by omega)⟩
  | jp nnn => exact ⟨_, .jp nnn⟩
  | call nnn =>
    by_cases h : s.depth.val < 16
    · exact ⟨_, .call nnn h⟩
    · exact ⟨_, .fault (.callFull nnn (by omega))⟩
  | ldVx x nn => exact ⟨_, .ldVx x nn⟩
  | addVx x nn => exact ⟨_, .addVx x nn⟩
  | ldI nnn => exact ⟨_, .ldI nnn⟩
  | drw x y n =>
    cases h : s.spriteOutOfBounds (spriteRows (s.spriteRow y) n) with
    | false => exact ⟨_, .drw x y n h⟩
    | true => exact ⟨_, .fault (.drwOutOfBounds x y n h)⟩
  | unimpl w => exact ⟨_, .unimpl w⟩

/-- The relation is `exec`. -/
theorem exec_eq_iff {i : Instr} {s t : State} : exec i s = .next t ↔ Effect s i t := by
  refine ⟨fun h => ?_, Effect.exec_eq⟩
  obtain ⟨u, hu⟩ := exists_effect i s
  obtain rfl : u = t := by simpa [hu.exec_eq] using h
  exact hu

/-! ### What the statements say of single instructions -/

/-- Settles O19: the cases of a stack that is not full and of a full one. -/
theorem callResult : Obligations.CallResult := by
  unfold Obligations.CallResult
  intro nnn s
  rw [← addrOperand_eq]
  exact ⟨exec_call_of_lt nnn s, exec_call_full nnn s⟩

/-- Settles O20: the cases of a stack that is not empty and of an empty one. -/
theorem retResult : Obligations.RetResult := by
  unfold Obligations.RetResult
  exact fun s => ⟨exec_ret_of_pos s, exec_ret_empty s⟩

/-- Settles O21: the `CALL` leaves `pc + 2` in the slot that a `RET` with its depth pops. -/
theorem callRetRoundTrip : Obligations.CallRetRoundTrip := by
  unfold Obligations.CallRetRoundTrip
  intro nnn s h
  refine ⟨_, exec_call_of_lt nnn s h, fun u hdepth htop => ?_⟩
  have hdepth : u.depth.val = s.depth.val + 1 := congrArg Fin.val hdepth
  have hslot : u.depth.val - 1 = s.depth.val := by omega
  have htop : u.stack[u.depth.val - 1] = s.pc + 2#16 := by simpa [hslot] using htop
  exact ⟨_, exec_ret_of_pos u (by omega) (by omega) (by omega), htop, Fin.ext hslot⟩

/-- Settles O26: the two conditions are those of the check of the sprite's addresses. -/
theorem drwFaults : Obligations.DrwFaults := by
  unfold Obligations.DrwFaults
  intro x y n s hrows haddr
  exact exec_drw_outOfBounds x y n s ((s.spriteOutOfBounds_iff _).mpr ⟨hrows, haddr⟩)

/-- Settles O30: an unimplemented opcode only advances, and its event is its address and word. -/
theorem unimplResult : Obligations.UnimplResult := by
  unfold Obligations.UnimplResult
  exact fun w s => ⟨exec_unimpl w s, rfl⟩

/-! ### Faults -/

/-- No instruction raises the fault of the fetch. -/
theorem not_raises_programCounterOutOfBounds (s : State) (i : Instr) : ¬ Raises s i .programCounterOutOfBounds := nofun

/-- Only a `CALL` at depth 16 overflows (60_exceptions.md R122). -/
theorem raises_callStackOverflow_iff {s : State} {i : Instr} :
    Raises s i .callStackOverflow ↔ (∃ nnn, i = .call nnn) ∧ s.depth.val = 16 := by
  constructor
  · rintro ⟨nnn, h⟩
    exact ⟨⟨nnn, rfl⟩, h⟩
  · rintro ⟨⟨nnn, rfl⟩, h⟩
    exact .callFull nnn h

/-- Only a `RET` at depth 0 underflows (60_exceptions.md R123). -/
theorem raises_callStackUnderflow_iff {s : State} {i : Instr} :
    Raises s i .callStackUnderflow ↔ i = .ret ∧ s.depth.val = 0 := by
  constructor
  · rintro ⟨⟩
    exact ⟨rfl, ‹_›⟩
  · rintro ⟨rfl, h⟩
    exact .retEmpty h

/-- Only a `DRW` with a row above 0xFFF leaves memory (60_exceptions.md R124). -/
theorem raises_spriteAddressOutOfBounds_iff {s : State} {i : Instr} :
    Raises s i .spriteAddressOutOfBounds ↔ ∃ x y n, i = .drw x y n ∧
      1 ≤ min n.toNat (32 - (s.readV y).toNat % 32) ∧
      0xFFF < s.i.toNat + min n.toNat (32 - (s.readV y).toNat % 32) - 1 := by
  constructor
  · rintro ⟨⟩
    rename_i x y n h
    exact ⟨x, y, n, rfl, (s.spriteOutOfBounds_iff _).mp h⟩
  · rintro ⟨x, y, n, rfl, h⟩
    exact .drwOutOfBounds x y n ((s.spriteOutOfBounds_iff _).mpr h)

/-- An instruction leaves the latch alone, or raises its fault. -/
theorem Effect.fault_eq_or_raises {s t : State} {i : Instr} (h : Effect s i t) :
    t.fault = s.fault ∨ ∃ c, Raises s i c ∧ t = s.raise c := by
  cases h with
  | fault h => exact .inr ⟨_, h, rfl⟩
  | _ => exact .inl rfl

/-- On a core without a fault, a cause is latched exactly when the instruction raises it. -/
theorem Effect.fault_eq_some_iff {s t : State} {i : Instr} {c : FaultCause} (h : Effect s i t) (hs : s.fault = none) :
    t.fault = some ⟨c, s.pc⟩ ↔ Raises s i c := by
  constructor
  · intro ht
    rcases h.fault_eq_or_raises with heq | ⟨c', hc', rfl⟩
    · simp [heq, hs] at ht
    · obtain rfl : c' = c := by simpa using ht
      exact hc'
  · intro hc
    obtain rfl : s.raise c = t := by simpa [hc.exec_eq] using h.exec_eq
    rfl

/-! ### Frames -/

/-- The two states agree on everything that no instruction writes. -/
structure SameInert (s t : State) : Prop where
  memory : t.memory = s.memory
  delayTimer : t.delayTimer = s.delayTimer
  soundTimer : t.soundTimer = s.soundTimer
  keypad : t.keypad = s.keypad
  runState : t.runState = s.runState

/-- No instruction writes memory, a timer, the keypad or the run state. -/
theorem Effect.sameInert {s t : State} {i : Instr} (h : Effect s i t) : SameInert s t := by
  cases h <;> exact ⟨rfl, rfl, rfl, rfl, rfl⟩

/-- Settles O33: of the effects only `LD Vx` and `ADD Vx` write a register, their `X`, and `DRW`, VF. -/
theorem registerWriters : Obligations.RegisterWriters := by
  unfold Obligations.RegisterWriters
  intro i s t r h hne
  have hwritten {x : Nibble} {b : Byte} (hne : (s.advance.writeV x b).readV r ≠ s.readV r) : r = x := by
    by_contra hx
    exact hne (s.advance_readV_writeV_ne b hx)
  cases exec_eq_iff.mp h with
  | ldVx x nn =>
    obtain rfl := hwritten hne
    exact .inl ⟨nn, rfl⟩
  | addVx x nn =>
    obtain rfl := hwritten hne
    exact .inr (.inl ⟨nn, rfl⟩)
  | drw x y n =>
    refine .inr (.inr ⟨?_, x, y, n, rfl⟩)
    by_contra hr
    exact hne (State.readV_writeVF_ne _ _ hr)
  | _ => exact absurd rfl hne

/-- Settles O34: each of the five pieces of state is written by the effects of the instructions named, and a fault, which
writes the latch, is raised by one of the three. -/
theorem otherWriters : Obligations.OtherWriters := by
  unfold Obligations.OtherWriters
  intro i s t h
  have h := exec_eq_iff.mp h
  refine ⟨fun hne => ?_, fun hne => ?_, fun hne => ?_, fun hne => ?_, fun hne => ?_⟩
  · cases h with
    | ldI nnn => exact ⟨nnn, rfl⟩
    | _ => exact absurd rfl hne
  · cases h with
    | call nnn => exact ⟨nnn, rfl⟩
    | _ => exact absurd rfl hne
  · cases h with
    | call nnn => exact .inl ⟨nnn, rfl⟩
    | ret => exact .inr rfl
    | _ => exact absurd rfl hne
  · cases h with
    | cls => exact .inl rfl
    | drw x y n => exact .inr ⟨x, y, n, rfl⟩
    | _ => exact absurd rfl hne
  · obtain ⟨c, hc, -⟩ := h.fault_eq_or_raises.resolve_left hne
    cases hc with
    | callFull nnn => exact .inl ⟨nnn, rfl⟩
    | retEmpty => exact .inr (.inl rfl)
    | drwOutOfBounds x y n => exact .inr (.inr ⟨x, y, n, rfl⟩)

end Sys2Proof.Machine
end

section
/-! The step (40_fetch_decode_step.md): everything it can do, once, and what follows for faults, events and frames. -/

namespace Sys2Proof.Machine

/-! ### The one inversion of `step` -/

/-- A `Running` core without a fault, with `pc` in the range of the fetch, executes the word at `pc`. -/
theorem step_of_running {s : State} (hr : s.runState = .running) (hf : s.fault = none) (hp : s.pc.toNat ≤ 4094) :
    step s = exec (decodeWord s.fetchWord) s :=
  step_exec s (s.canStep_iff.mpr ⟨hr, hf⟩) (Bool.eq_false_iff.mpr fun h => by
    have := s.fetchOutOfBounds_iff.mp h; omega)

/-- The ways a step ends: nothing, the fault of the fetch, or the effect of the instruction at `pc`. -/
inductive StepEffect (s : State) : State → Prop
  | gated (h : s.canStep = false) : StepEffect s s
  | fetchFault (hr : s.runState = .running) (hf : s.fault = none) (hp : 4094 < s.pc.toNat) :
      StepEffect s (s.raise .programCounterOutOfBounds)
  | executed {t : State} (hr : s.runState = .running) (hf : s.fault = none) (hp : s.pc.toNat ≤ 4094)
      (he : Effect s (decodeWord s.fetchWord) t) : StepEffect s t

/-- The relation is `step`. -/
theorem step_eq_iff {s t : State} : step s = .next t ↔ StepEffect s t := by
  constructor
  · intro h
    rcases step_cases s with ⟨hc, hs⟩ | ⟨hc, hp, hs⟩ | ⟨hc, hp, hs⟩ <;> rw [hs] at h
    · cases h
      exact .gated hc
    · cases h
      obtain ⟨hr, hf⟩ := s.canStep_iff.mp hc
      exact .fetchFault hr hf (s.fetchOutOfBounds_iff.mp hp)
    · obtain ⟨hr, hf⟩ := s.canStep_iff.mp hc
      have hp : ¬ 4094 < s.pc.toNat := fun hlt => by simp [s.fetchOutOfBounds_iff.mpr hlt] at hp
      exact .executed hr hf (by omega) (exec_eq_iff.mp h)
  · rintro (h | ⟨hr, hf, hp⟩ | ⟨hr, hf, hp, he⟩)
    · exact step_gated s h
    · exact step_outOfBounds s (s.canStep_iff.mpr ⟨hr, hf⟩) (s.fetchOutOfBounds_iff.mpr hp)
    · rw [step_of_running hr hf hp, he.exec_eq]

/-- A step of a `Running` core without a fault, with `pc` in the range of the fetch, is the effect of the instruction. -/
theorem effect_of_step {s t : State} (hr : s.runState = .running) (hf : s.fault = none) (hp : s.pc.toNat ≤ 4094)
    (h : step s = .next t) : Effect s (decodeWord s.fetchWord) t :=
  exec_eq_iff.mp (step_of_running hr hf hp ▸ h)

/-- Settles O15: each of the ways a step or an instruction ends is a next state. -/
theorem stepAlwaysNext : Obligations.StepAlwaysNext := by
  unfold Obligations.StepAlwaysNext
  have hexec (i : Instr) (s : State) : ∃ t : State, exec i s = .next t := (exists_effect i s).imp fun _ => Effect.exec_eq
  refine ⟨fun s => ?_, hexec⟩
  rcases step_cases s with ⟨-, h⟩ | ⟨-, -, h⟩ | ⟨-, -, h⟩
  · exact ⟨_, h⟩
  · exact ⟨_, h⟩
  · rw [h]
    exact hexec _ s

/-! ### Gate, fetch and decoding -/

/-- Settles O12: the two bytes decode to the word that the step executes. -/
theorem stepRunsDecoded : Obligations.StepRunsDecoded := by
  unfold Obligations.StepRunsDecoded
  intro s i hr hf hp hdecode
  have hi : decodeWord s.fetchWord = i := by simpa using s.decode_fetchBytes.symm.trans hdecode
  rw [step_of_running hr hf hp, hi]

/-- Settles O13: such a core may not step, so it is a fixed point of `step` and emits nothing. -/
theorem stepGated : Obligations.StepGated := by
  unfold Obligations.StepGated
  intro s n h
  have hgate : s.canStep = false := Bool.eq_false_iff.mpr fun hc => by
    obtain ⟨hr, hf⟩ := s.canStep_iff.mp hc
    exact h.elim (absurd hr) (absurd hf)
  exact ⟨run_of_step_fixed (step_gated s hgate) n, stepDiag_gated hgate⟩

/-- Settles O14: the fetch faults above 4094 and else gives the word of the two bytes. -/
theorem fetchBound : Obligations.FetchBound := by
  unfold Obligations.FetchBound
  intro s hr hf
  refine ⟨fun hp => step_eq_iff.mpr (.fetchFault hr hf hp), fun hp => ?_⟩
  rw [← s.fetchWord_toNat, BitVec.ofNat_toNat, BitVec.setWidth_eq, step_of_running hr hf hp]

/-- Placing a word readies the core: it may step. -/
theorem State.withFetchWord_canStep (s : State) (nbits w : Nat) : (s.withFetchWord nbits w).canStep = true := rfl

/-- A readied core's `pc` is one it can fetch at. -/
theorem State.readied_pc_le (s : State) : s.readied.pc.toNat ≤ 4094 := by
  rw [State.readied]
  split_ifs with h
  · exact (by decide : (0x200#16).toNat ≤ 4094)
  · exact Nat.not_lt.mp (mt s.fetchOutOfBounds_iff.mpr h)

/-- The word a readied core fetches is the one placed. -/
theorem State.withFetchWord_fetchWord (s : State) (nbits w : Nat) (hwf : Memory.wf s.memory = true) :
    (s.withFetchWord nbits w).fetchWord = tableWord nbits w := by
  have hpc := s.readied_pc_le
  have hlen : (tableBytes nbits w).length = 2 := rfl
  have hbyte (k : Nat) (hk : k < (tableBytes nbits w).length) :
      (s.withFetchWord nbits w).byteAt (s.readied.pc.toNat + k) = (tableBytes nbits w)[k] :=
    Memory.byteAt_writeBytes_inside (tableBytes nbits w) hwf (by omega) k hk
  calc (s.withFetchWord nbits w).fetchWord
      = wordOfBytes ((tableWord nbits w).extractLsb' 8 8) ((tableWord nbits w).extractLsb' 0 8) :=
        congrArg₂ wordOfBytes (hbyte 0 (by omega)) (hbyte 1 (by omega))
    _ = tableWord nbits w := wordOfBytes_split _

/-- Settles O17: the readied core may step and fetch, and its memory holds the word's bytes at `pc`. -/
theorem placedWordRuns : Obligations.PlacedWordRuns := by
  unfold Obligations.PlacedWordRuns
  intro s w hwf
  obtain ⟨hr, hf⟩ := (State.canStep_iff _).mp (s.withFetchWord_canStep 16 w)
  rw [step_of_running hr hf s.readied_pc_le, s.withFetchWord_fetchWord 16 w hwf, tableWord_16]

/-! ### The advance of `pc` -/

/-- From the last legal fetch downward the advance does not wrap. -/
theorem toNat_add_two {pc : Word} (h : pc.toNat ≤ 4094) : (pc + 2#16).toNat = pc.toNat + 2 := by
  rw [BitVec.toNat_add, BitVec.toNat_ofNat]
  omega

/-- Settles O16: the effects of `JP`, `CALL` and `RET` overwrite `pc`, every other keeps its advance, and a fault is
excluded. -/
theorem advanceOfPc : Obligations.AdvanceOfPc := by
  unfold Obligations.AdvanceOfPc
  intro s t hr hf hp h ht
  have hadd := toNat_add_two hp
  have hadvance : (s.pc + 2#16).toNat = s.pc.toNat + 2 ∧ (s.pc + 2#16).toNat ≤ 4096 := ⟨hadd, by omega⟩
  have he := effect_of_step hr hf hp h
  generalize decodeWord s.fetchWord = i at he ⊢
  cases he with
  | fault => cases ht
  | jp nnn => exact addrOperand_toNat nnn
  | call nnn hlt => exact ⟨addrOperand_toNat nnn, hlt, by simp [hadd]⟩
  | ret hpos hi => exact ⟨hpos, hi, rfl⟩
  | _ => exact hadvance

/-! ### The diagnostic event -/

/-- Only an unimplemented opcode has an event. -/
theorem diagOf_eq_some_iff {i : Instr} {s : State} {d : Diag} :
    diagOf i s = some d ↔ ∃ w, i = .unimpl w ∧ d = ⟨s.pc, w⟩ := by
  cases i <;> simp [diagOf, eq_comm]

/-- Settles O31: the step has the event of the instruction it executes, and the decoder gives `unimpl` with the word it
read. -/
theorem diagExactlyUnimpl : Obligations.DiagExactlyUnimpl := by
  unfold Obligations.DiagExactlyUnimpl
  intro s d
  have hp : s.fetchOutOfBounds = false ↔ s.pc.toNat ≤ 4094 := by
    rw [← Bool.not_eq_true, s.fetchOutOfBounds_iff, Nat.not_lt]
  have hdiag : diagOf (decodeWord s.fetchWord) s = some d ↔
      isUnimplWord s.fetchWord = true ∧ d = ⟨s.pc, s.fetchWord⟩ := by
    simp [diagOf_eq_some_iff, decodeWord_eq_unimpl_iff, and_assoc]
  rw [stepDiag, Option.ite_none_right_eq_some, Bool.and_eq_true, Bool.not_eq_true', s.canStep_iff, hp, hdiag]
  simp only [and_assoc]

/-! ### Faults -/

/-- Settles O36: a step writes the latch only by raising a fault, which writes nothing else. -/
theorem faultsArePrecise : Obligations.FaultsArePrecise := by
  unfold Obligations.FaultsArePrecise
  intro s t h hne
  cases step_eq_iff.mp h with
  | gated => exact absurd rfl hne
  | fetchFault => exact ⟨_, rfl⟩
  | executed hr hf hp he =>
    obtain ⟨c, -, rfl⟩ := he.fault_eq_or_raises.resolve_left hne
    exact ⟨c, rfl⟩

/-- Settles O37: above 4094 the fetch faults, whatever the word; at 4094 and below the instruction raises the causes whose
condition holds. -/
theorem faultCauses : Obligations.FaultCauses := by
  unfold Obligations.FaultCauses
  intro s t hr hf h
  cases step_eq_iff.mp h with
  | gated hgate => simp [State.canStep, hr, hf] at hgate
  | fetchFault _ _ hp =>
    have hle : ¬ s.pc.toNat ≤ 4094 := by omega
    simp [hp, hle]
  | executed _ _ hp he =>
    have hlt : ¬ 4094 < s.pc.toNat := by omega
    simp only [he.fault_eq_some_iff hf, raises_callStackOverflow_iff, raises_callStackUnderflow_iff,
      raises_spriteAddressOutOfBounds_iff, not_raises_programCounterOutOfBounds, hp, hlt, true_and, and_self]

/-- Settles O38: the conditions exclude the fault of the fetch and every fault an instruction raises. -/
theorem wellBehavedStepIsSafe : Obligations.WellBehavedStepIsSafe := by
  unfold Obligations.WellBehavedStepIsSafe
  intro s t hsafe hp hcall hret hdrw h
  cases step_eq_iff.mp h with
  | gated => exact hsafe
  | fetchFault _ _ hp' => omega
  | executed hr hf _ he =>
    rcases he.fault_eq_or_raises with heq | ⟨c, hc, -⟩
    · exact heq.trans hsafe
    · exfalso
      generalize decodeWord s.fetchWord = i at *
      cases hc with
      | callFull nnn hfull => have := hcall nnn rfl; omega
      | retEmpty hempty => have := hret rfl; omega
      | drwOutOfBounds x y n hout =>
        have hle := hdrw x y n rfl
        rw [s.spriteOutOfBounds_iff, spriteRows_spriteRow] at hout
        omega

/-! ### Frames -/

/-- No step writes memory, a timer, the keypad or the run state. -/
theorem StepEffect.sameInert {s t : State} (h : StepEffect s t) : SameInert s t := by
  cases h with
  | gated => exact ⟨rfl, rfl, rfl, rfl, rfl⟩
  | fetchFault => exact ⟨rfl, rfl, rfl, rfl, rfl⟩
  | executed _ _ _ he => exact he.sameInert

/-- States with the same memory read alike. -/
theorem SameInert.byteAt_eq {s t : State} (h : SameInert s t) (a : Nat) : t.byteAt a = s.byteAt a :=
  congrArg (Memory.byteAt · a) h.memory

/-- Settles O32: memory is among what no effect writes. -/
theorem memoryNeverWritten : Obligations.MemoryNeverWritten := by
  unfold Obligations.MemoryNeverWritten
  exact ⟨fun _ _ _ h => (exec_eq_iff.mp h).sameInert.byteAt_eq, fun _ _ h => (step_eq_iff.mp h).sameInert.byteAt_eq⟩

/-- Settles O35: the timers, the keypad and the run state are among what no effect writes. -/
theorem inertState : Obligations.InertState := by
  unfold Obligations.InertState
  refine ⟨fun i s t h => ?_, fun s t h => ?_⟩
  · obtain ⟨-, hd, hs, hk, hr⟩ := (exec_eq_iff.mp h).sameInert
    exact ⟨hd, hs, hk, hr⟩
  · obtain ⟨-, hd, hs, hk, hr⟩ := (step_eq_iff.mp h).sameInert
    exact ⟨hd, hs, hk, hr⟩

/-! ### The end of a program -/

/-- Settles O45: a jump writes `pc` only, and here with what it holds. -/
theorem selfJumpFinishes : Obligations.SelfJumpFinishes := by
  unfold Obligations.SelfJumpFinishes
  intro s nnn hr hf hp hword haddr
  have htarget : addrOperand nnn = s.pc := BitVec.eq_of_toNat_eq ((addrOperand_toNat nnn).trans haddr)
  refine ⟨hr, hf, ?_⟩
  rw [step_of_running hr hf hp, hword, exec_jp, htarget]
  rfl

end Sys2Proof.Machine
end

section
/-! What no instruction reads (40_fetch_decode_step.md R74; 10_state.md R13, R15): an effect in one state is the same effect
in a state that differs in a piece the instruction does not read. -/

namespace Sys2Proof.Machine

/-! ### The timers and the keypad -/

/-- The state with other timers and another keypad. -/
def State.withInputs (s : State) (d u : Byte) (k : Vector Bool 16) : State :=
  { s with delayTimer := d, soundTimer := u, keypad := k }

/-- Which fault an instruction raises does not depend on the timers or the keypad. -/
theorem Raises.withInputs {s : State} {i : Instr} {c : FaultCause} (h : Raises s i c) (d u : Byte) (k : Vector Bool 16) :
    Raises (s.withInputs d u k) i c := by
  cases h with
  | callFull nnn h => exact .callFull nnn h
  | retEmpty h => exact .retEmpty h
  | drwOutOfBounds x y n h => exact .drwOutOfBounds x y n h

/-- What an instruction does does not depend on the timers or the keypad, and it keeps them. -/
theorem Effect.withInputs {s t : State} {i : Instr} (h : Effect s i t) (d u : Byte) (k : Vector Bool 16) :
    Effect (s.withInputs d u k) i (t.withInputs d u k) := by
  cases h with
  | fault h => exact .fault (h.withInputs d u k)
  | cls => exact .cls
  | ret h hi hd => exact .ret (s := s.withInputs d u k) h hi hd
  | jp nnn => exact .jp nnn
  | call nnn h => exact .call (s := s.withInputs d u k) nnn h
  | ldVx x nn => exact .ldVx x nn
  | addVx x nn => exact .addVx x nn
  | ldI nnn => exact .ldI nnn
  | drw x y n h => exact .drw (s := s.withInputs d u k) x y n h
  | unimpl w => exact .unimpl w

/-- Settles O39: neither the gate nor the fetch reads the timers or the keypad, and no effect does. -/
theorem unreadStateDoesNotMatter : Obligations.UnreadStateDoesNotMatter := by
  unfold Obligations.UnreadStateDoesNotMatter
  intro s t d u k h
  rw [step_eq_iff] at h ⊢
  cases h with
  | gated h => exact .gated h
  | fetchFault hr hf hp => exact .fetchFault (s := s.withInputs d u k) hr hf hp
  | executed hr hf hp he => exact .executed (s := s.withInputs d u k) hr hf hp (he.withInputs d u k)

/-! ### The index register -/

/-- Settles O40: the check and the rows of `DRW` are the only reads of `I`. -/
theorem indexReadOnlyByDrw : Obligations.IndexReadOnlyByDrw := by
  unfold Obligations.IndexReadOnlyByDrw
  intro i s t a hdrw h
  rw [exec_eq_iff] at h ⊢
  cases h with
  | fault h =>
    cases h with
    | callFull nnn h => exact .fault (s := s.writeI a) (.callFull nnn h)
    | retEmpty h => exact .fault (s := s.writeI a) (.retEmpty h)
    | drwOutOfBounds x y n => exact absurd ⟨x, y, n, rfl⟩ hdrw
  | cls => exact .cls
  | ret h hi hd => exact .ret (s := s.writeI a) h hi hd
  | jp nnn => exact .jp nnn
  | call nnn h => exact .call (s := s.writeI a) nnn h
  | ldVx x nn => exact .ldVx x nn
  | addVx x nn => exact .addVx x nn
  | ldI nnn =>
    have h := Effect.ldI (s := s.writeI a) nnn
    rw [addrOperand_eq] at h
    exact h
  | drw x y n => exact absurd ⟨x, y, n, rfl⟩ hdrw
  | unimpl w => exact .unimpl w

/-! ### The dead slots of the call stack -/

/-- The state with other stack slots. -/
def State.withStack (s : State) (st : Vector Word 16) : State := { s with stack := st }

/-- Which fault an instruction raises does not depend on the slots. -/
theorem Raises.withStack {s : State} {i : Instr} {c : FaultCause} (h : Raises s i c) (st : Vector Word 16) :
    Raises (s.withStack st) i c := by
  cases h with
  | callFull nnn h => exact .callFull nnn h
  | retEmpty h => exact .retEmpty h
  | drwOutOfBounds x y n h => exact .drwOutOfBounds x y n h

/-- What an instruction does does not depend on a slot at `depth` or above: the entry a `RET` pops lies below it, and a
`CALL` that pushes there overwrites it. -/
theorem Effect.withDeadSlot {s t : State} {i : Instr} (h : Effect s i t) {k : Nat} (hk : k < 16) (a : Word)
    (hdead : s.depth.val ≤ k) :
    ∃ b : Word, Effect (s.withStack (s.stack.set k a hk)) i (t.withStack (t.stack.set k b hk)) := by
  cases h with
  | fault h => exact ⟨a, .fault (h.withStack _)⟩
  | cls => exact ⟨a, .cls⟩
  | ret h hi hd =>
    have htop : (s.stack.set k a hk)[s.depth.val - 1] = s.stack[s.depth.val - 1] :=
      Vector.getElem_set_ne hk hi (by omega)
    rw [← htop]
    exact ⟨a, .ret (s := s.withStack (s.stack.set k a hk)) h hi hd⟩
  | jp nnn => exact ⟨a, .jp nnn⟩
  | call nnn h =>
    have hcall := Effect.call (s := s.withStack (s.stack.set k a hk)) nnn h
    by_cases hslot : s.depth.val = k
    · refine ⟨s.pc + 2#16, ?_⟩
      have hset : (s.stack.set k a hk).set s.depth.val (s.pc + 2#16) h =
          (s.stack.set s.depth.val (s.pc + 2#16) h).set k (s.pc + 2#16) hk := by
        subst hslot
        rw [Vector.set_set, Vector.set_set]
      exact hset ▸ hcall
    · refine ⟨a, ?_⟩
      have hset : (s.stack.set k a hk).set s.depth.val (s.pc + 2#16) h =
          (s.stack.set s.depth.val (s.pc + 2#16) h).set k a hk := Vector.set_comm _ _ (Ne.symm hslot)
      exact hset ▸ hcall
  | ldVx x nn => exact ⟨a, .ldVx x nn⟩
  | addVx x nn => exact ⟨a, .addVx x nn⟩
  | ldI nnn => exact ⟨a, .ldI nnn⟩
  | drw x y n h => exact ⟨a, .drw (s := s.withStack (s.stack.set k a hk)) x y n h⟩
  | unimpl w => exact ⟨a, .unimpl w⟩

/-- Settles O41: neither the gate nor the fetch reads the stack, and no effect reads a dead slot. -/
theorem deadSlotsDoNotMatter : Obligations.DeadSlotsDoNotMatter := by
  unfold Obligations.DeadSlotsDoNotMatter
  intro s t k hk a hdead h
  simp only [step_eq_iff] at h ⊢
  cases h with
  | gated h => exact ⟨a, .gated h⟩
  | fetchFault hr hf hp => exact ⟨a, .fetchFault (s := s.withStack (s.stack.set k a hk)) hr hf hp⟩
  | executed hr hf hp he =>
    obtain ⟨b, hb⟩ := he.withDeadSlot hk a hdead
    exact ⟨b, .executed (s := s.withStack (s.stack.set k a hk)) hr hf hp hb⟩

end Sys2Proof.Machine
end

section
/-! The closed form of `DRW` (44_draw_buffer.md R101, R102): the bits of a sprite as a function of the cell they land on. A
draw is the exclusive or of the display with them, and it collides where both are on. -/

namespace Sys2Proof.Machine

/-- The cells of the rectangle of `rows` rows and eight columns at (`x0`, `y0`). -/
def InRectangle (x0 y0 rows : Nat) (col : Fin 64) (row : Fin 32) : Prop :=
  x0 ≤ col.val ∧ col.val < x0 + 8 ∧ y0 ≤ row.val ∧ row.val < y0 + rows

/-- The sprite bit of a `DRW` that lands on a cell: false outside its rectangle, which the bottom edge clips. -/
def State.drwBit (s : State) (x y n : Nibble) (col : Fin 64) (row : Fin 32) : Bool :=
  decide ((s.spriteRow y).val ≤ row.val ∧ row.val < (s.spriteRow y).val + spriteRows (s.spriteRow y) n) &&
    decide ((s.spriteCol x).val ≤ col.val ∧ col.val < (s.spriteCol x).val + 8) &&
    (s.spriteByte (row.val - (s.spriteRow y).val)).getLsbD (7 - (col.val - (s.spriteCol x).val))

/-- The loops of `DRW` run over the first rows of the sprite, in order. -/
theorem State.canvas_eq (s : State) (x y n : Nibble) :
    s.canvas x y n = drawRows s.spriteByte (s.spriteCol x) (s.spriteRow y)
      (List.range' 0 (spriteRows (s.spriteRow y) n)) ⟨s.display, false⟩ := by
  rw [State.canvas, drawSprite, List.range_eq_range']

/-- A draw is the exclusive or of the display with the sprite's bits. -/
theorem State.canvas_cell (s : State) (x y n : Nibble) (col : Fin 64) (row : Fin 32) :
    Display.cell (s.canvas x y n).display col row = (s.cell col row ^^ s.drwBit x y n col row) := by
  rw [s.canvas_eq]
  exact (drawRows_spec _ _ _ _ 0 (spriteRows_le _ n) _).1 col row

/-- A draw collides when a 1 bit of the sprite lands on a cell that is on. -/
theorem State.canvas_collision (s : State) (x y n : Nibble) :
    (s.canvas x y n).collision = true ↔ ∃ col row, s.drwBit x y n col row = true ∧ s.cell col row = true := by
  rw [s.canvas_eq, (drawRows_spec _ _ _ _ 0 (spriteRows_le _ n) _).2]
  simp [State.drwBit, State.cell, and_assoc]

/-- The sprite's bits by the numbers of the statements: the clipped rectangle, and the byte at `I` plus the row. -/
theorem State.drwBit_eq_true_iff (s : State) (x y n : Nibble) (col : Fin 64) (row : Fin 32) :
    s.drwBit x y n col row = true ↔
      InRectangle ((s.readV x).toNat % 64) ((s.readV y).toNat % 32) (min n.toNat (32 - (s.readV y).toNat % 32)) col row ∧
      Nat.testBit (s.byteAt (s.i.toNat + (row.val - (s.readV y).toNat % 32))).toNat
        (7 - (col.val - (s.readV x).toNat % 64)) = true := by
  simp only [State.drwBit, Bool.and_eq_true, decide_eq_true_eq, InRectangle]
  exact ⟨fun ⟨⟨⟨hy, hy'⟩, hx, hx'⟩, hb⟩ => ⟨⟨hx, hx', hy, hy'⟩, hb⟩,
    fun ⟨⟨hx, hx', hy, hy'⟩, hb⟩ => ⟨⟨⟨hy, hy'⟩, hx, hx'⟩, hb⟩⟩

/-- The check of the sprite's addresses passes when no row to be read lies above 0xFFF. -/
theorem State.spriteOutOfBounds_eq_false {s : State} {y n : Nibble}
    (h : ¬ (1 ≤ min n.toNat (32 - (s.readV y).toNat % 32) ∧
      0xFFF < s.i.toNat + min n.toNat (32 - (s.readV y).toNat % 32) - 1)) :
    s.spriteOutOfBounds (spriteRows (s.spriteRow y) n) = false :=
  Bool.eq_false_iff.mpr fun hout => h ((s.spriteOutOfBounds_iff _).mp hout)

/-- VF after a draw is 1 when it collided. -/
theorem collisionFlag_eq_one_iff (b : Bool) : collisionFlag b = 1#8 ↔ b = true := by cases b <;> decide

/-- The cells after a `DRW`. -/
theorem State.drawn_cell (s : State) (x y n : Nibble) (col : Fin 64) (row : Fin 32) :
    (s.drawn x y n).cell col row = (s.cell col row ^^ s.drwBit x y n col row) := s.canvas_cell x y n col row

/-- VF after a `DRW`. -/
theorem State.drawn_readVF (s : State) (x y n : Nibble) :
    (s.drawn x y n).readV 0xF#4 = collisionFlag (s.canvas x y n).collision := State.readV_writeVF_same _ _

/-- A `DRW` leaves every register but VF alone. -/
theorem State.drawn_readV_ne (s : State) (x y n : Nibble) {z : Nibble} (h : z ≠ 0xF#4) :
    (s.drawn x y n).readV z = s.readV z := State.readV_writeVF_ne _ _ h

/-- Settles O27: the state a `DRW` leaves, its cells and its collision by the sprite's bits. -/
theorem drwClosedForm : Obligations.DrwClosedForm := by
  unfold Obligations.DrwClosedForm
  rintro x y n s x0 y0 rows rfl rfl rfl hin
  refine ⟨s.drawn x y n, exec_drw_of_inBounds x y n s (State.spriteOutOfBounds_eq_false hin), fun col row => ?_, ?_,
    fun z hz => s.drawn_readV_ne x y n hz, rfl⟩
  · have hbit := s.drwBit_eq_true_iff x y n col row
    rw [s.drawn_cell]
    split_ifs with hrect
    · exact congrArg _ (Bool.eq_iff_iff.mpr (hbit.trans (and_iff_right hrect)))
    · rw [Bool.eq_false_iff.mpr fun hb => hrect (hbit.mp hb).1, Bool.xor_false]
  · rw [s.drawn_readVF]
    cases hc : (s.canvas x y n).collision with
    | true =>
      obtain ⟨col, row, hbit, hcell⟩ := (s.canvas_collision x y n).mp hc
      obtain ⟨hrect, hbit⟩ := (s.drwBit_eq_true_iff x y n col row).mp hbit
      exact .inl ⟨rfl, col, row, hrect, hbit, hcell⟩
    | false =>
      refine .inr ⟨rfl, fun col row hrect hbit => Bool.eq_false_iff.mpr fun hcell => ?_⟩
      have hbit := (s.drwBit_eq_true_iff x y n col row).mpr ⟨hrect, hbit⟩
      exact Bool.eq_false_iff.mp hc ((s.canvas_collision x y n).mpr ⟨col, row, hbit, hcell⟩)

/-- A `DRW` that starts at the same place as an earlier one, whose memory and `I` it finds, has the same sprite bits. -/
theorem State.drwBit_congr {s t : State} {x y : Nibble} (n : Nibble) (hmem : t.memory = s.memory) (hi : t.i = s.i)
    (hx : (t.readV x).toNat % 64 = (s.readV x).toNat % 64) (hy : (t.readV y).toNat % 32 = (s.readV y).toNat % 32) :
    t.drwBit x y n = s.drwBit x y n := by
  funext col row
  rw [Bool.eq_iff_iff, t.drwBit_eq_true_iff, s.drwBit_eq_true_iff, hx, hy, hi, State.byteAt, State.byteAt, hmem]

/-- Settles O28: both draws are the exclusive or with the same bits, which cancel; the second collides where a bit lands on
a cell that is on, and there the first turned it on. -/
theorem doubleDrawRestores : Obligations.DoubleDrawRestores := by
  unfold Obligations.DoubleDrawRestores
  intro x y n s t hin ht hx hy
  obtain rfl : s.drawn x y n = t := by
    simpa [exec_drw_of_inBounds x y n s (State.spriteOutOfBounds_eq_false hin)] using ht
  set t := s.drawn x y n
  have hbits : t.drwBit x y n = s.drwBit x y n := State.drwBit_congr n rfl rfl hx hy
  have hin' : t.spriteOutOfBounds (spriteRows (t.spriteRow y) n) = false :=
    State.spriteOutOfBounds_eq_false (by rw [hy]; exact hin)
  refine ⟨t.drawn x y n, exec_drw_of_inBounds x y n t hin', fun col row => ?_, ?_⟩
  · rw [t.drawn_cell, hbits, s.drawn_cell, Bool.xor_assoc, Bool.xor_self, Bool.xor_false]
  · rw [t.drawn_readVF, collisionFlag_eq_one_iff, t.canvas_collision, hbits]
    refine exists_congr fun col => exists_congr fun row => ?_
    rw [s.drawn_cell]
    cases s.cell col row <;> cases s.drwBit x y n col row <;> decide

/-- Settles O29: of the effects only those of `CLS` and `DRW` write the display; the first turns cells off only, the second
changes the cells its 1 bits land on. -/
theorem displayWriters : Obligations.DisplayWriters := by
  unfold Obligations.DisplayWriters
  intro s t col row h hne
  cases step_eq_iff.mp h with
  | gated => exact absurd rfl hne
  | fetchFault => exact absurd rfl hne
  | executed hr hf hp he =>
    refine ⟨hr, hf, hp, ?_⟩
    generalize decodeWord s.fetchWord = i at he
    cases he with
    | cls =>
      rw [State.writeDisplay_cell, Display.cell_clear] at hne
      exact .inl ⟨rfl, Bool.eq_true_of_not_eq_false hne.symm⟩
    | drw x y n =>
      have hbit : s.drwBit x y n col row = true := by
        refine Bool.eq_true_of_not_eq_false fun hb => hne ?_
        exact (s.drawn_cell x y n col row).trans (by rw [hb, Bool.xor_false])
      obtain ⟨⟨hx, hx', hy, hy'⟩, hbit⟩ := (s.drwBit_eq_true_iff x y n col row).mp hbit
      exact .inr ⟨x, y, n, rfl, hx, hx', hy, by omega, hbit⟩
    | _ => exact absurd rfl hne

end Sys2Proof.Machine
end

section
/-! Memory as its 4096 bytes (20_memory.md R30; log entry 2): the canonical list is determined by them. -/

namespace Sys2Proof.Machine

/-- A canonical list by its first cell. -/
theorem Memory.wfAbove_cons_iff {lo b : Nat} {u : Byte} {m : Memory} :
    Memory.wfAbove lo ((b, u) :: m) = true ↔
      lo ≤ b ∧ b < 4096 ∧ u ≠ Memory.resetByte b ∧ Memory.wfAbove (b + 1) m = true := by
  simp [Memory.wfAbove, and_assoc]

/-- The first cell of a list reads as it says. -/
theorem Memory.byteAt_head (b : Nat) (u : Byte) (m : Memory) : Memory.byteAt ((b, u) :: m) b = u := if_pos rfl

/-- The first cell of a list does not matter at the other addresses. -/
theorem Memory.byteAt_tail {a b : Nat} (u : Byte) (m : Memory) (h : a ≠ b) :
    Memory.byteAt ((b, u) :: m) a = Memory.byteAt m a := if_neg h

/-- A canonical list does not start below one that reads alike: the byte of its first cell is not the one an unlisted
address holds. -/
theorem Memory.le_head_of_byteAt_eq {m m' : Memory} {lo lo' b : Nat} {u : Byte}
    (h : Memory.wfAbove lo ((b, u) :: m) = true) (h' : Memory.wfAbove lo' m' = true)
    (heq : ∀ a < 4096, Memory.byteAt ((b, u) :: m) a = Memory.byteAt m' a) : lo' ≤ b := by
  obtain ⟨-, hb, hu, -⟩ := Memory.wfAbove_cons_iff.mp h
  by_contra hlt
  apply hu
  calc u = Memory.byteAt ((b, u) :: m) b := (Memory.byteAt_head b u m).symm
    _ = Memory.byteAt m' b := heq b hb
    _ = Memory.resetByte b := Memory.byteAt_of_lt h' (by omega)

/-- Canonical lists that read alike are the same. -/
theorem Memory.eq_of_byteAt_eq {m m' : Memory} {lo : Nat} (h : Memory.wfAbove lo m = true)
    (h' : Memory.wfAbove lo m' = true) (heq : ∀ a < 4096, Memory.byteAt m a = Memory.byteAt m' a) : m = m' := by
  induction m generalizing m' lo with
  | nil =>
    cases m' with
    | nil => rfl
    | cons c' m' =>
      have hle : c'.1 + 1 ≤ c'.1 := Memory.le_head_of_byteAt_eq h' (m' := []) rfl fun a ha => (heq a ha).symm
      omega
  | cons c m ih =>
    obtain ⟨b, u⟩ := c
    obtain ⟨-, hb, hu, htail⟩ := Memory.wfAbove_cons_iff.mp h
    cases m' with
    | nil =>
      have hle : b + 1 ≤ b := Memory.le_head_of_byteAt_eq h (m' := []) rfl heq
      omega
    | cons c' m' =>
      obtain ⟨b', u'⟩ := c'
      obtain ⟨-, hb', hu', htail'⟩ := Memory.wfAbove_cons_iff.mp h'
      have hle : b' ≤ b := Memory.le_head_of_byteAt_eq h
        (Memory.wfAbove_cons_iff.mpr ⟨Nat.le_refl b', hb', hu', htail'⟩) heq
      have hge : b ≤ b' := Memory.le_head_of_byteAt_eq h'
        (Memory.wfAbove_cons_iff.mpr ⟨Nat.le_refl b, hb, hu, htail⟩)
        fun a ha => (heq a ha).symm
      obtain rfl : b = b' := by omega
      have hbyte : u = u' := by simpa only [Memory.byteAt_head] using heq b hb
      have htails : ∀ a < 4096, Memory.byteAt m a = Memory.byteAt m' a := fun a ha => by
        by_cases hab : a ≤ b
        · rw [Memory.byteAt_of_lt htail (by omega), Memory.byteAt_of_lt htail' (by omega)]
        · simpa only [Memory.byteAt_tail _ _ (show a ≠ b by omega)] using heq a ha
      rw [hbyte, ih htail htail' htails]

/-- Settles O10: the canonical lists from address 0 on. -/
theorem memoryIsItsBytes : Obligations.MemoryIsItsBytes := by
  unfold Obligations.MemoryIsItsBytes
  exact fun _ _ h h' heq => Memory.eq_of_byteAt_eq h h' heq

/-- Settles O9: reset memory lists no cell, so it reads as the font and zeros; every other piece is the value written. -/
theorem resetState : Obligations.ResetState := by
  unfold Obligations.ResetState
  refine ⟨fun a h => dif_pos h, fun a h _ => State.reset_byteAt_above_font h, fun x => ?_, rfl, rfl, rfl, fun k hk => ?_,
    rfl, rfl, Display.cell_clear, fun k hk => ?_, rfl, rfl⟩
  · exact Vector.getElem_replicate _
  · exact Vector.getElem_replicate _
  · exact Vector.getElem_replicate _

end Sys2Proof.Machine
end

section
/-! The host's commands (00_scope.md R4; 70_reset_and_hazards.md R150 to R152; 60_exceptions.md R133). -/

namespace Sys2Proof.Machine

/-! ### LoadRom -/

/-- A ROM above 3584 bytes is too large, and only such a one (70_reset_and_hazards.md R151). -/
theorem loadRom_eq_none_iff {bytes : List Byte} {s : State} : loadRom bytes s = none ↔ 3584 < bytes.length := by
  simp [loadRom]

/-- The `LoadRom` of a ROM that fits boots the core. -/
theorem command_loadRom_of_some {bytes : List Byte} {s t : State} (h : loadRom bytes s = some t) :
    command (.loadRom bytes) ⟨s, .fresh⟩ = .next ⟨⟨t, .booted⟩, none, none⟩ := by
  simp [command, h]

/-- The `LoadRom` of a ROM that is too large fails and leaves the core as it is. -/
theorem command_loadRom_of_none {bytes : List Byte} {s : State} (h : loadRom bytes s = none) :
    command (.loadRom bytes) ⟨s, .fresh⟩ = .next ⟨⟨s, .failed⟩, some .romTooLarge, none⟩ := by
  simp [command, h]

/-- `LoadRom` has its meaning in the fresh phase only (the spec's own decision D12). -/
theorem command_loadRom_late {m : Session} (h : m.phase ≠ .fresh) (bytes : List Byte) :
    command (.loadRom bytes) m = .refused .lateLoadRom := by
  unfold command
  cases hp : m.phase with
  | fresh => exact absurd hp h
  | _ => rfl

/-- A `LoadRom` that replies is one of a fresh session, and has booted it or failed. -/
theorem command_loadRom_cases {bytes : List Byte} {m : Session} {r : Reply} (h : command (.loadRom bytes) m = .next r) :
    m.phase = .fresh ∧
      ((∃ t, loadRom bytes m.core = some t ∧ r = ⟨⟨t, .booted⟩, none, none⟩) ∨
        loadRom bytes m.core = none ∧ r = ⟨⟨m.core, .failed⟩, some .romTooLarge, none⟩) := by
  obtain ⟨s, p⟩ := m
  have hp : p = .fresh := by
    by_contra hp
    cases (command_loadRom_late hp bytes).symm.trans h
  subst hp
  refine ⟨rfl, ?_⟩
  cases hload : loadRom bytes s with
  | some t =>
    cases (command_loadRom_of_some hload).symm.trans h
    exact .inl ⟨t, rfl, rfl⟩
  | none =>
    cases (command_loadRom_of_none hload).symm.trans h
    exact .inr ⟨rfl, rfl⟩

/-- Settles O47: the ROM's bytes written to canonical memory, which a fitting ROM does not leave. -/
theorem loadRomResult : Obligations.LoadRomResult := by
  unfold Obligations.LoadRomResult
  intro bytes s hwf
  refine ⟨fun hlen => command_loadRom_of_none (loadRom_eq_none_iff.mpr hlen), fun hlen => ?_⟩
  have hend : 0x200 + bytes.length ≤ 4096 := by omega
  exact ⟨_, command_loadRom_of_some (loadRom_eq_some_iff.mpr ⟨hlen, rfl⟩),
    Memory.byteAt_writeBytes_inside bytes hwf hend,
    fun _ ha => Memory.byteAt_writeBytes_outside s.memory bytes ha,
    Memory.wf_writeBytes bytes hwf hend, rfl⟩

/-! ### Step -/

/-- `Step` has its meaning in the booted phase only (the spec's own decision D12). -/
theorem command_step_early {m : Session} (h : m.phase ≠ .booted) : command .step m = .refused .stepBeforeBoot := by
  unfold command
  cases hp : m.phase with
  | booted => exact absurd hp h
  | _ => rfl

/-- A `Step` of a booted session is the step of its core, with the event. -/
theorem command_step_booted {m : Session} {t : State} (hp : m.phase = .booted) (h : step m.core = .next t) :
    command .step m = .next ⟨⟨t, .booted⟩, none, stepDiag m.core⟩ := by
  simp [command, hp, h]

/-- Settles O53: the refusals of the other phases, and the step of a booted core, which always answers. -/
theorem bootLifecycle : Obligations.BootLifecycle := by
  unfold Obligations.BootLifecycle
  refine fun m => ⟨fun h bytes => command_loadRom_late h bytes, command_step_early, fun hp => ?_⟩
  obtain ⟨t, ht⟩ := stepAlwaysNext.1 m.core
  exact ⟨t, ht, command_step_booted hp ht⟩

/-! ### Initialize, PauseToggle and Quit -/

/-- Settles O46: `Initialize` does not look at the session. -/
theorem initializeResult : Obligations.InitializeResult := by
  unfold Obligations.InitializeResult
  exact fun _ => rfl

/-- Settles O49: `PauseToggle` by the run state it finds; the other two write a fixed one. -/
theorem runStateMachine : Obligations.RunStateMachine := by
  unfold Obligations.RunStateMachine
  refine fun m => ⟨⟨_, rfl, fun h => ?_, fun h => ?_, fun h => ?_⟩, ⟨_, rfl, rfl⟩, ⟨_, rfl, rfl⟩⟩
  · rw [pauseToggle_running h]
  · rw [pauseToggle_paused h]
  · rw [pauseToggle_quit h, h]

/-- The moment for `LoadRom` passes with a `PauseToggle` or `Quit` in the fresh phase. -/
theorem passLoadMoment_of_fresh {p : BootPhase} (h : p = .fresh) : passLoadMoment p = .missed := by
  rw [h]; rfl

/-- Settles O50: both commands write the run state and pass the moment for `LoadRom`. -/
theorem hostWritesRunStateOnly : Obligations.HostWritesRunStateOnly := by
  unfold Obligations.HostWritesRunStateOnly
  intro c m r hc h
  rcases hc with rfl | rfl
  · cases h
    exact ⟨rfl, passLoadMoment_of_fresh, passLoadMoment_of_ne_fresh, rfl, rfl⟩
  · cases h
    exact ⟨rfl, passLoadMoment_of_fresh, passLoadMoment_of_ne_fresh, rfl, rfl⟩

/-- Every command but `Initialize` ends the fresh phase. -/
theorem phase_ne_fresh_of_command {c : Command} {m : Session} {r : Reply} (hc : c ≠ .init)
    (h : command c m = .next r) : r.session.phase ≠ .fresh := by
  cases c with
  | init => exact absurd rfl hc
  | loadRom bytes =>
    obtain ⟨-, ⟨t, -, rfl⟩ | ⟨-, rfl⟩⟩ := command_loadRom_cases h
    · exact nofun
    · exact nofun
  | step =>
    obtain ⟨-, t, -, rfl⟩ := command_step_cases h
    exact nofun
  | pauseToggle =>
    cases h
    exact passLoadMoment_ne_fresh m.phase
  | quit =>
    cases h
    exact passLoadMoment_ne_fresh m.phase

/-- Settles O54: `Initialize` leaves the fresh session, in which `LoadRom` is `boot`; every other command ends the fresh
phase, outside which `LoadRom` is refused. -/
theorem loadRomImmediatelyAfterInitialize : Obligations.LoadRomImmediatelyAfterInitialize := by
  unfold Obligations.LoadRomImmediatelyAfterInitialize
  refine ⟨fun m r bytes h => ?_, fun c m r bytes hc h => command_loadRom_late (phase_ne_fresh_of_command hc h) bytes⟩
  cases h
  exact ⟨fun _ => command_loadRom_of_some, command_loadRom_of_none⟩

end Sys2Proof.Machine
end

section
/-! The invariants of the core and of the session (10_state.md R13 to R16, R18; log entries 2, 4, 6, 9): they hold at reset,
each effect keeps the bounds, and so every step and every command keeps them. -/

namespace Sys2Proof.Machine

/-! ### The bounds through an effect -/

/-- An effect leaves `I` at most 0xFFF: only `LD I` writes it, with a 12-bit operand (10_state.md R13). -/
theorem Effect.i_le {s t : State} {i : Instr} (he : Effect s i t) (h : s.i.toNat ≤ 0xFFF) : t.i.toNat ≤ 0xFFF := by
  cases he with
  | ldI nnn =>
    have := nnn.isLt
    rw [State.writeI_i, addrOperand_toNat]
    omega
  | _ => exact h

/-- An effect leaves `pc` at most 0x1000: it advances from a legal fetch, or jumps to a 12-bit operand or to a live return
address (10_state.md R14). -/
theorem Effect.pc_le {s t : State} {i : Instr} (he : Effect s i t) (hp : s.pc.toNat ≤ 4094)
    (hstack : ∀ (k : Nat) (hk : k < 16), k < s.depth.val → (s.stack[k]'hk).toNat ≤ 0x1000) :
    t.pc.toNat ≤ 0x1000 := by
  have hadvance : (s.pc + 2#16).toNat ≤ 0x1000 := by
    rw [toNat_add_two hp]
    omega
  have haddr (nnn : Addr12) : (addrOperand nnn).toNat ≤ 0x1000 := by
    have := nnn.isLt
    rw [addrOperand_toNat]
    omega
  cases he with
  | fault =>
    rw [State.raise_pc]
    omega
  | ret hpos hi => exact hstack _ hi (by omega)
  | jp nnn => exact haddr nnn
  | call nnn => exact haddr nnn
  | _ => exact hadvance

/-- An effect leaves every live return address at most 0x1000: a `CALL` pushes an advanced `pc`, and a `RET` only makes
fewer of them live (10_state.md R15). -/
theorem Effect.stack_le {s t : State} {i : Instr} (he : Effect s i t) (hp : s.pc.toNat ≤ 4094)
    (hstack : ∀ (k : Nat) (hk : k < 16), k < s.depth.val → (s.stack[k]'hk).toNat ≤ 0x1000) :
    ∀ (k : Nat) (hk : k < 16), k < t.depth.val → (t.stack[k]'hk).toNat ≤ 0x1000 := by
  cases he with
  | ret hpos hi hd => exact fun k hk hlive => hstack k hk (Nat.lt_of_lt_of_le hlive (Nat.sub_le _ _))
  | call nnn h =>
    intro k hk hlive
    by_cases hslot : k = s.depth.val
    · subst hslot
      simp only [Vector.getElem_set_self, toNat_add_two hp]
      omega
    · have hlive : k < s.depth.val + 1 := hlive
      simp only [Vector.getElem_set_ne h hk (Ne.symm hslot)]
      exact hstack k hk (by omega)
  | _ => exact hstack

/-- An effect on a core without a fault latches none, or one with the `pc` it leaves (60_exceptions.md R129). -/
theorem Effect.fault_pc {s t : State} {i : Instr} (he : Effect s i t) (hf : s.fault = none) :
    ∀ r, t.fault = some r → r.faultPc = t.pc := by
  intro r hr
  rcases he.fault_eq_or_raises with heq | ⟨c, -, rfl⟩
  · simp [heq, hf] at hr
  · cases hr
    rfl

/-! ### The core's invariant -/

/-- The invariant of a state that agrees with one that meets it on everything no instruction writes. -/
theorem State.Inv.of_sameInert {s t : State} (hs : s.Inv) (h : SameInert s t) (hi : t.i.toNat ≤ 0xFFF)
    (hpc : t.pc.toNat ≤ 0x1000)
    (hstack : ∀ (k : Nat) (hk : k < 16), k < t.depth.val → (t.stack[k]'hk).toNat ≤ 0x1000)
    (hfault : ∀ r, t.fault = some r → r.faultPc = t.pc) : t.Inv where
  memory_wf := h.memory ▸ hs.memory_wf
  i_le := hi
  pc_le := hpc
  stack_le := hstack
  timers_zero := ⟨h.delayTimer ▸ hs.timers_zero.1, h.soundTimer ▸ hs.timers_zero.2⟩
  keypad_off := h.keypad ▸ hs.keypad_off
  fault_pc := hfault

/-- An effect at a legal fetch, on a core without a fault, keeps the invariant. -/
theorem Effect.inv {s t : State} {i : Instr} (he : Effect s i t) (hf : s.fault = none) (hp : s.pc.toNat ≤ 4094)
    (hs : s.Inv) : t.Inv :=
  hs.of_sameInert he.sameInert (he.i_le hs.i_le) (he.pc_le hp hs.stack_le) (he.stack_le hp hs.stack_le) (he.fault_pc hf)

/-- Taking a fault keeps the invariant. -/
theorem State.Inv.raise {s : State} (hs : s.Inv) (c : FaultCause) : (s.raise c).Inv :=
  hs.of_sameInert ⟨rfl, rfl, rfl, rfl, rfl⟩ hs.i_le hs.pc_le hs.stack_le fun r hr => by cases hr; rfl

/-- Settles O43: a gated step changes nothing, a fault only the latch, and an instruction's effect keeps each bound. -/
theorem invStep : Obligations.InvStep := by
  unfold Obligations.InvStep
  intro s t hs h
  cases step_eq_iff.mp h with
  | gated => exact hs
  | fetchFault => exact hs.raise _
  | executed hr hf hp he => exact he.inv hf hp hs

/-! ### The session's invariant -/

/-- The invariant holds at reset. -/
theorem State.inv_reset : State.reset.Inv where
  memory_wf := Memory.wf_reset
  i_le := Nat.zero_le _
  pc_le := by decide
  stack_le := fun k hk hlive => absurd hlive (Nat.not_lt_zero k)
  timers_zero := ⟨rfl, rfl⟩
  keypad_off := fun k hk => Vector.getElem_replicate hk
  fault_pc := nofun

/-- The invariant holds of the session `Initialize` leaves. -/
theorem Session.inv_fresh : Session.fresh.Inv := ⟨State.inv_reset, fun _ => rfl, fun _ => rfl⟩

/-- Settles O42: the invariants at reset. -/
theorem invReset : Obligations.InvReset := by
  unfold Obligations.InvReset
  exact ⟨State.inv_reset, Session.inv_fresh⟩

/-- The core's invariant says nothing of the run state. -/
theorem State.Inv.withRunState {s : State} (hs : s.Inv) (rs : RunState) : State.Inv { s with runState := rs } :=
  ⟨hs.memory_wf, hs.i_le, hs.pc_le, hs.stack_le, hs.timers_zero, hs.keypad_off, hs.fault_pc⟩

/-- The core's invariant asks of memory only its canonical form. -/
theorem State.Inv.withMemory {s : State} (hs : s.Inv) {m : Memory} (hm : Memory.wf m = true) :
    State.Inv { s with memory := m } :=
  ⟨hm, hs.i_le, hs.pc_le, hs.stack_le, hs.timers_zero, hs.keypad_off, hs.fault_pc⟩

/-- A `LoadRom` that succeeds keeps the core's invariant: the ROM fits into memory. -/
theorem State.Inv.loadRom {s t : State} (hs : s.Inv) {bytes : List Byte} (h : loadRom bytes s = some t) : t.Inv := by
  obtain ⟨hlen, rfl⟩ := loadRom_eq_some_iff.mp h
  exact hs.withMemory (Memory.wf_writeBytes bytes hs.memory_wf (by omega))

/-- A booted session has the invariant when its core does: what the session's invariant adds is about the other phases. -/
theorem Session.inv_booted {s : State} (hs : s.Inv) : Session.Inv ⟨s, .booted⟩ := ⟨hs, nofun, absurd rfl⟩

/-- A write of the run state that passes the moment for `LoadRom` keeps the session's invariant. -/
theorem Session.Inv.passLoadMoment {m : Session} (hm : m.Inv) (rs : RunState) :
    Session.Inv ⟨{ m.core with runState := rs }, Machine.passLoadMoment m.phase⟩ where
  core := hm.core.withRunState rs
  fresh := fun h => absurd h (passLoadMoment_ne_fresh m.phase)
  unrun := fun h => hm.unrun (mt (passLoadMoment_eq_booted m.phase).mpr h)

/-- Settles O44: each command leaves the fresh session, boots or steps the core, holds it where it is, or writes its run
state. -/
theorem invCommand : Obligations.InvCommand := by
  unfold Obligations.InvCommand
  intro c m r hm h
  cases c with
  | init =>
    cases h
    exact Session.inv_fresh
  | loadRom bytes =>
    obtain ⟨hp, ⟨t, ht, rfl⟩ | ⟨-, rfl⟩⟩ := command_loadRom_cases h
    · exact Session.inv_booted (hm.core.loadRom ht)
    · exact ⟨hm.core, nofun, fun _ => hm.unrun (by simp [hp])⟩
  | step =>
    obtain ⟨-, t, ht, rfl⟩ := command_step_cases h
    exact Session.inv_booted (invStep m.core t hm.core ht)
  | pauseToggle =>
    cases h
    exact hm.passLoadMoment _
  | quit =>
    cases h
    exact hm.passLoadMoment _

end Sys2Proof.Machine
end
